-- ==== Sys2Proof/Word.lean ====
section
/-! DEFINITION. The two widths of the block: a 32-bit word (commands, buffer words, delay values; rules R80, R24, R30) and an
8-bit pixel (rules R11, R23). -/

namespace Sys2Proof

/-- A 32-bit word: a command word, a buffer word, a delay value or a response. -/
abbrev Word := BitVec 32

/-- One unsigned 8-bit brightness sample. -/
abbrev Byte := BitVec 8

end Sys2Proof
end

