-- ==== Sys2Proof/Config.lean ====
section
/-! DEFINITION. The configuration record of the block (rule R5), the sizes derived from it, the example configurations of rule
R7, and the free values: what the spec leaves open about WHO steps next and WHICH pending cell the engine takes. -/

namespace Sys2Proof

/-- Which row index the pulse-count rule reads (rule R119, decision D15). -/
inductive PulseRowBasis where
  | output
  | logical
  deriving DecidableEq, Repr

/-- The immutable configuration `cfg` (rule R5). `MODULE_SIZE` and `COLOR_BITS` are fixed and stand below as constants. -/
structure Config where
  rowModules    : Nat
  colModules    : Nat
  delayLut      : Vector Word 8
  generations   : Nat
  pulseRowBasis : PulseRowBasis
  deriving DecidableEq, Repr

/-- `MODULE_SIZE`: pixels per column-group and rows per row-group (rule R5). -/
def moduleSize : Nat := 20

/-- `COLOR_BITS`: the number of bit-planes (rule R5, decision D19). -/
def colorBits : Nat := 8

/-- `ROW_COUNT = 20 × ROW_MODULES` (rule R5). -/
def Config.rowCount (c : Config) : Nat := moduleSize * c.rowModules

/-- `COL_COUNT = 20 × COL_MODULES` (rule R5). -/
def Config.colCount (c : Config) : Nat := moduleSize * c.colModules

/-- `WORDS_PER_ROW = COL_MODULES + 1` (rule R5). -/
def Config.wordsPerRow (c : Config) : Nat := c.colModules + 1

/-- `FRAME_BYTES = ROW_COUNT × COL_COUNT` (rule R5). -/
def Config.frameBytes (c : Config) : Nat := c.rowCount * c.colCount

/-- Cells of one generation of the encoded buffer: `8 × R × W` (rule R22). -/
def Config.generationWords (c : Config) : Nat := colorBits * c.rowCount * c.wordsPerRow

/-- Cells of the encoded buffer: `G × 8 × R × W` (rule R22). -/
def Config.bufWords (c : Config) : Nat := c.generations * c.generationWords

/-- `EXAMPLE_DELAY` (rule R7): the spec's example table, not the repository's. -/
def exampleDelay : Vector Word 8 := #v[100, 250, 625, 1563, 3906, 9766, 24414, 61035]

/-- Example configuration `T1` (rule R7): 20 × 20 pixels. DESIGN CHOICE (log entry 2): the one `State.reset` is elaborated with. -/
def Config.t1 : Config := ⟨1, 1, exampleDelay, 1, .output⟩

/-- Example configuration `T2` (rule R7): 40 × 40 pixels. -/
def Config.t2 : Config := ⟨2, 2, exampleDelay, 1, .output⟩

/-- Example configuration `T2G` (rule R7): `T2` with two generations. -/
def Config.t2g : Config := { Config.t2 with generations := 2 }

/-- FREE VALUE (rule R52, log entry 5): which of the enabled agents steps at a given tick. Nothing constrains it. -/
opaque Config.freeAgent : Nat → Nat

/-- FREE VALUE (rules R131, R132, log entry 5): which pending cell the engine takes at a given tick. -/
opaque Config.freeChoice : Nat → Nat

/-- FREE VALUE (rule R134, log entry 5): how many moves the engine may be passed over from a given tick on; some number, with no
bound on it, which is what weak fairness says. -/
opaque Config.freePatience : Nat → Nat

end Sys2Proof
end

