-- ==== Sys2Proof/Syntax.lean ====
section
/-! DEFINITION. The commands of the block: one constructor per row of spec/opcode_table.json, with the fields of the command
word as operands (rules R81 to R87), and what a port carries. -/

namespace Sys2Proof

/-- A decoded command. Every operand is the unsigned field of the command word, taken as it stands (rule R87). -/
inductive Instr where
  /-- ENCODE: `LEN` payload bytes follow on the same port (rules R82, R130). -/
  | encode (len : BitVec 24)
  /-- RDWORD: word `idx` of output row `row` of plane `plane` of generation `gen` (rules R83, R141). -/
  | rdword (gen : BitVec 1) (plane : BitVec 3) (row idx : BitVec 12)
  /-- RDDELAY: delay-table entry `phase` (rules R84, R164). -/
  | rddelay (phase : BitVec 3)
  /-- RDSTATUS: the status word (rules R85, R144). -/
  | rdstatus
  /-- RDFRAME: the frame-copy cell of logical row `row` and column `col` (rules R86, R145). -/
  | rdframe (row col : BitVec 12)
  deriving DecidableEq, Repr

/-- How many payload bytes follow the command word: `LEN` for ENCODE, none for a read (rule R80). -/
def Instr.payloadLength : Instr → Nat
  | .encode len => len.toNat
  | .rdword _ _ _ _ => 0
  | .rddelay _ => 0
  | .rdstatus => 0
  | .rdframe _ _ => 0

/-- The two command ports (rule R51). -/
inductive Port where
  /-- Port `H`, driven by the application context. -/
  | host
  /-- Port `R`, driven by the render context. -/
  | render
  deriving DecidableEq, Repr

/-- What a port is offered for one step: a command word and, for ENCODE, its payload bytes (rules R51, R80). -/
structure Transaction where
  cmd     : Word
  payload : List Byte
  deriving DecidableEq, Repr

end Sys2Proof
end

