-- ==== Sys2Proof/WellFormed.lean ====
section
/-! DEFINITION. Well-formedness: the configuration check of rules R6 and R161, and the operand check of a command against a
configuration (rules R82, R141, R145). A command that fails the second still decodes and runs: its meaning takes the fault the
spec names. -/

namespace Sys2Proof

/-- One consecutive pair of delay values: `2 × lo <= hi` and `2 × hi <= 7 × lo` (rule R161). -/
def delayRatioOk (lo hi : Word) : Bool :=
  decide (2 * lo.toNat ≤ hi.toNat) && decide (2 * hi.toNat ≤ 7 * lo.toNat)

/-- The delay-table check of rule R161. The bound `<= 2^32 - 1` is the width of `Word`. -/
def delayTableOk (d : Vector Word 8) : Bool :=
  decide (1 ≤ d[0].toNat) &&
    delayRatioOk d[0] d[1] && delayRatioOk d[1] d[2] && delayRatioOk d[2] d[3] && delayRatioOk d[3] d[4] &&
    delayRatioOk d[4] d[5] && delayRatioOk d[5] d[6] && delayRatioOk d[6] d[7]

/-- A configuration is well formed (rule R6). `PULSE_ROW_BASIS in {OUTPUT, LOGICAL}` is its type. -/
def Config.wf (c : Config) : Bool :=
  decide (1 ≤ c.rowModules) && decide (c.rowModules ≤ 204) &&
    decide (1 ≤ c.colModules) && decide (c.colModules ≤ 204) &&
    (decide (c.generations = 1) || decide (c.generations = 2)) &&
    delayTableOk c.delayLut

/-- The operands name something the configuration has: `LEN = FRAME_BYTES` (rule R82), the index fields of RDWORD and RDFRAME in
their spaces (rules R141, R145). Every 3-bit plane and phase is in range (rules R141, R164). -/
def Instr.wf (c : Config) : Instr → Bool
  | .encode len => decide (len.toNat = c.frameBytes)
  | .rdword gen _ row idx =>
      decide (gen.toNat < c.generations) && decide (row.toNat < c.rowCount) && decide (idx.toNat < c.wordsPerRow)
  | .rddelay _ => true
  | .rdstatus => true
  | .rdframe row col => decide (row.toNat < c.rowCount) && decide (col.toNat < c.colCount)

end Sys2Proof
end

