-- ==== Sys2Proof/Decode.lean ====
section
/-! DEFINITION. The command decoder, total on 32-bit words (rule R91), the encoder, and the mask and match of each row of
spec/opcode_table.json. -/

namespace Sys2Proof

/-- Why a word is no command; both are the cause E_ILLEGAL_CMD (rule R181). -/
inductive DecodeReject where
  /-- `OP` is `0000` or `0110` to `1111` (rules R88, R89). -/
  | reservedOp
  /-- A defined `OP` with a 1 in a bit that must be 0 (rule R90). -/
  | reservedBits
  deriving DecidableEq, Repr

/-- The decoder: `OP = cmd[31:28]` selects the command, then the reserved bits are checked (rules R81 to R91). -/
def decode (cmd : Word) : Except DecodeReject Instr :=
  match cmd.extractLsb' 28 4 with
  | 0b0001#4 =>
      if cmd.extractLsb' 24 4 = 0#4 then .ok (.encode (cmd.extractLsb' 0 24)) else .error .reservedBits
  | 0b0010#4 =>
      .ok (.rdword (cmd.extractLsb' 27 1) (cmd.extractLsb' 24 3) (cmd.extractLsb' 12 12) (cmd.extractLsb' 0 12))
  | 0b0011#4 =>
      if cmd.extractLsb' 27 1 = 0#1 ∧ cmd.extractLsb' 0 24 = 0#24 then .ok (.rddelay (cmd.extractLsb' 24 3))
      else .error .reservedBits
  | 0b0100#4 =>
      if cmd.extractLsb' 0 28 = 0#28 then .ok .rdstatus else .error .reservedBits
  | 0b0101#4 =>
      if cmd.extractLsb' 24 4 = 0#4 then .ok (.rdframe (cmd.extractLsb' 12 12) (cmd.extractLsb' 0 12))
      else .error .reservedBits
  | _ => .error .reservedOp

/-- The encoder: the fields side by side, highest first (rules R82 to R86). -/
def encode : Instr → Word
  | .encode len => 0b0001#4 ++ 0#4 ++ len
  | .rdword gen plane row idx => 0b0010#4 ++ gen ++ plane ++ row ++ idx
  | .rddelay phase => 0b0011#4 ++ 0#1 ++ phase ++ 0#24
  | .rdstatus => 0b0100#4 ++ 0#28
  | .rdframe row col => 0b0101#4 ++ 0#4 ++ row ++ col

/-- The mask of the command's row (rules R82 to R86). -/
def opcodeMask : Instr → Word
  | .encode _ => 0xFF000000#32
  | .rdword _ _ _ _ => 0xF0000000#32
  | .rddelay _ => 0xF8FFFFFF#32
  | .rdstatus => 0xFFFFFFFF#32
  | .rdframe _ _ => 0xFF000000#32

/-- The match of the command's row (rules R82 to R86). -/
def opcodeMatch : Instr → Word
  | .encode _ => 0x10000000#32
  | .rdword _ _ _ _ => 0x20000000#32
  | .rddelay _ => 0x30000000#32
  | .rdstatus => 0x40000000#32
  | .rdframe _ _ => 0x50000000#32

/-- The instruction read from a word given as the number `w` of `nbits` bits; bits above `nbits` are 0. -/
def decodeTableWord (nbits w : Nat) : Option Instr :=
  match decode (BitVec.ofNat 32 (w % 2 ^ nbits)) with
  | .ok i => some i
  | .error _ => none

end Sys2Proof
end

