-- ==== Sys2Proof/Machine/State.lean ====
section
/-! DEFINITION. The state of the block: the seven elements of rule R22 (the eighth, `DELAY_LUT`, is the configuration's, rule
R30), the read-only configuration, and the model's own fields: what the environment offers on the ports, the responses returned
so far, and the plain data that say which agent moves next. -/

namespace Sys2Proof.Machine

/-- A storage space: (index, value) pairs, indices strictly rising. An unlisted index holds no value (`none`, rules R23, R24). -/
abbrev Memory (α : Type) : Type := List (Nat × α)

/-- The four fault causes (rule R180). -/
inductive FaultCode where
  | illegalCmd
  | range
  | notReady
  | frameSize
  deriving DecidableEq, Repr

/-- The fault record `{code, port, cmd}` (rule R29). -/
structure FaultRecord where
  code : FaultCode
  port : Port
  cmd  : Word
  deriving DecidableEq, Repr

/-- A position `(b, y, k)` in one generation: plane, output row, word index (rules R24, R28). -/
structure WordPos where
  plane : Nat
  row   : Nat
  idx   : Nat
  deriving DecidableEq, Repr

/-- The in-flight encode (rule R28). The two pending sets are lists; a member is in the set. -/
structure Job where
  frame        : List Byte
  tg           : BitVec 1
  framePending : List Nat
  wordPending  : List WordPos
  deriving DecidableEq, Repr

/-- A response word and the port that got it (rule R9). -/
structure Response where
  port  : Port
  value : Word
  deriving DecidableEq, Repr

/-- The agents of rule R10. -/
inductive Agent where
  | port (p : Port)
  | engine
  deriving DecidableEq, Repr

/-- One scripted move: an agent's step (the engine's with the number that selects its pending cell, rules R131, R132), or a
reset from the environment (rule R210). -/
inductive Move where
  | port (p : Port)
  | engine (choice : Nat)
  | reset
  deriving DecidableEq, Repr

/-- The state. `cfg` is never written (rule R5, log entry 1). -/
structure State where
  /-- The configuration, with `DELAY_LUT` (rules R5, R30). -/
  cfg         : Config
  /-- `S.frameCopy` (rule R23). -/
  frameCopy   : Memory Byte
  /-- `S.buf`, keyed by the linear index of `bufIndex` (rule R24). -/
  buf         : Memory Word
  /-- `S.ready` (rule R25). -/
  ready       : Bool
  /-- `S.busy` (rule R26). -/
  busy        : Bool
  /-- `S.curGen` (rule R27). -/
  curGen      : BitVec 1
  /-- `S.job` (rule R28). -/
  job         : Option Job
  /-- `S.fault` (rule R29). -/
  fault       : Option FaultRecord
  /-- The model's own: transactions offered on port `H`, the head first (log entry 3). -/
  hostQueue   : List Transaction
  /-- The model's own: transactions offered on port `R`, the head first (log entry 3). -/
  renderQueue : List Transaction
  /-- The model's own: the port whose command is being performed (log entry 3). -/
  active      : Port
  /-- The responses returned so far, oldest first (rule R223, log entry 11). -/
  responses   : List Response
  /-- The model's own: the scripted moves still to come (log entry 4). -/
  schedule    : List Move
  /-- The model's own: the counter the free values are applied to (log entry 5). -/
  tick        : Nat
  /-- The model's own: how many more free moves the engine may be passed over (rule R134, log entry 5). -/
  patience    : Nat
  deriving DecidableEq, Repr

/-- Why a step answers `fault`. -/
inductive Fault where
  /-- Raised by the step alone, never by an instruction's meaning: the block is halted by the recorded fault (rule R186) and no
  scripted move, hence no reset, is left. Safe: nothing could change any more. -/
  | halted (r : FaultRecord)
  deriving DecidableEq, Repr

/-- Why a step answers `refused`. -/
inductive Refusal where
  /-- Raised by an arm of `exec` without a meaning; no arm is left so. Safe. -/
  | notModelled (mnemonic : String)
  /-- Raised by the step when the configuration fails the check of rule R6: such a block is not elaborated. Safe. -/
  | illFormedConfig
  deriving DecidableEq, Repr

/-- The reset values of rule R210 in configuration `c`, with nothing offered on a port and nothing scripted. -/
def State.resetFor (c : Config) : State where
  cfg         := c
  frameCopy   := []
  buf         := []
  ready       := false
  busy        := false
  curGen      := 0#1
  job         := none
  fault       := none
  hostQueue   := []
  renderQueue := []
  active      := .host
  responses   := []
  schedule    := []
  tick        := 0
  patience    := 0

/-- The machine right after reset. DESIGN CHOICE (log entry 2): the parameters the spec leaves open are those of its example
configuration `T1` (rule R7). -/
def State.reset : State := State.resetFor Config.t1

end Sys2Proof.Machine
end

