-- ==== Sys2Proof/Machine/Operands.lean ====
section
/-! DEFINITION. What a command's operand fields select: the cells of the three index spaces (rules R23, R24, R50, R87), the range
checks (rules R141, R145, R182) and the frame-size check (rules R69, R130, R184). -/

namespace Sys2Proof.Machine

/-- Frame-copy cell `i = l × C + c` (rules R23, R58). -/
def frameIndex (c : Config) (row col : Nat) : Nat := row * c.colCount + col

/-- The linear index of buffer cell `(g, b, y, k)` (rule R24, log entry 14): generations, planes, rows and words nested in that
order. -/
def bufIndex (c : Config) (gen : BitVec 1) (p : WordPos) : Nat :=
  ((gen.toNat * colorBits + p.plane) * c.rowCount + p.row) * c.wordsPerRow + p.idx

/-- The word positions of one generation: `b < 8`, `y < R`, `k < W` (rule R130). -/
def WordPos.inRange (c : Config) (p : WordPos) : Bool :=
  decide (p.plane < colorBits) && decide (p.row < c.rowCount) && decide (p.idx < c.wordsPerRow)

/-- Every word position of one generation (rule R130), in the nesting order of the index. -/
def allWordPos (c : Config) : List WordPos :=
  (List.range colorBits).flatMap fun b =>
    (List.range c.rowCount).flatMap fun y =>
      (List.range c.wordsPerRow).map fun k => ⟨b, y, k⟩

/-- The position the fields of RDWORD select (rules R83, R87). -/
def wordPosOf (plane : BitVec 3) (row idx : BitVec 12) : WordPos := ⟨plane.toNat, row.toNat, idx.toNat⟩

/-- RDWORD's fields are in their spaces (rules R141, R182). -/
def rdwordInRange (c : Config) (gen : BitVec 1) (row idx : BitVec 12) : Bool :=
  decide (gen.toNat < c.generations) && decide (row.toNat < c.rowCount) && decide (idx.toNat < c.wordsPerRow)

/-- RDFRAME's fields are in their spaces (rules R145, R182). -/
def rdframeInRange (c : Config) (row col : BitVec 12) : Bool :=
  decide (row.toNat < c.rowCount) && decide (col.toNat < c.colCount)

/-- The frame is whole: `LEN = FRAME_BYTES` (rule R130), and the port carries exactly that many bytes (rule R69, DEDUCED, log
entry 10). -/
def frameSizeOk (c : Config) (len : BitVec 24) (payload : List Byte) : Bool :=
  decide (len.toNat = c.frameBytes) && decide (payload.length = c.frameBytes)

/-- The generation an ENCODE accepted now would write: 0 when `G = 1`, the inactive one when `G = 2` (rules R57, R130). -/
def targetGen (c : Config) (curGen : BitVec 1) : BitVec 1 := if c.generations = 2 then 1#1 - curGen else 0#1

/-- A transaction is whole: exactly as many payload bytes as its command takes (rule R80). A word that decodes to no command
takes none. -/
def transactionWf (t : Transaction) : Bool :=
  match decode t.cmd with
  | .ok i => decide (t.payload.length = i.payloadLength)
  | .error _ => decide (t.payload.length = 0)

end Sys2Proof.Machine
end

