-- ==== Sys2Proof/Machine/Ops.lean ====
section
/-! DEFINITION. The named operations: one storage space (read, write, canonical form), the primitives of rule R9 over the state,
what a port's command does at its end (a response, or a fault), the fault entry of rule R186 and, beside it, the only way out of
the faulted state, reset (rules R210, R211). -/

namespace Sys2Proof.Machine

/-- The value of cell `i`, or `none` where nothing has been written (rules R9, R23, R24). -/
def Memory.read {α : Type} (m : Memory α) (i : Nat) : Option α :=
  match m with
  | [] => none
  | (j, v) :: rest => if i = j then some v else Memory.read rest i

/-- Write cell `i`, keeping the indices strictly rising. -/
def Memory.write {α : Type} (m : Memory α) (i : Nat) (v : α) : Memory α :=
  match m with
  | [] => [(i, v)]
  | (j, w) :: rest =>
      if i < j then (i, v) :: (j, w) :: rest
      else if i = j then (i, v) :: rest
      else (j, w) :: Memory.write rest i v

/-- Indices strictly rising, the first at least `lo`, all below `size`. -/
def Memory.wfFrom {α : Type} (lo size : Nat) (m : Memory α) : Bool :=
  match m with
  | [] => true
  | (j, _) :: rest => decide (lo ≤ j) && decide (j < size) && Memory.wfFrom (j + 1) size rest

/-- The canonical form of a space of `size` cells: strictly rising indices inside the space. A listed cell holds a value, so no
entry equals what an unlisted cell reads as. -/
def Memory.wf {α : Type} (size : Nat) (m : Memory α) : Bool := Memory.wfFrom 0 size m

/-- `FrameRead(i)` (rule R9). -/
def State.frameRead (s : State) (i : Nat) : Option Byte := Memory.read s.frameCopy i

/-- `FrameWrite(i, v)` (rule R9). -/
def State.frameWrite (s : State) (i : Nat) (v : Byte) : State := { s with frameCopy := Memory.write s.frameCopy i v }

/-- `BufRead(g, b, y, k)` (rule R9). -/
def State.bufRead (s : State) (gen : BitVec 1) (p : WordPos) : Option Word := Memory.read s.buf (bufIndex s.cfg gen p)

/-- `BufWrite(g, b, y, k, v)` (rule R9). -/
def State.bufWrite (s : State) (gen : BitVec 1) (p : WordPos) (v : Word) : State :=
  { s with buf := Memory.write s.buf (bufIndex s.cfg gen p) v }

/-- `Lut(p)` (rules R9, R30, R160). -/
def State.lut (s : State) (phase : BitVec 3) : Word := s.cfg.delayLut[phase.toNat]'(phase.isLt)

/-- The transactions offered on a port, the head first. -/
def State.queue (s : State) (p : Port) : List Transaction :=
  match p with
  | .host => s.hostQueue
  | .render => s.renderQueue

/-- The payload of the command being performed (rules R51, R80). -/
def State.payload (s : State) : List Byte :=
  match s.queue s.active with
  | [] => []
  | t :: _ => t.payload

/-- The command of the active port has been taken: the port's next offer, if any, comes to its head. -/
def State.retire (s : State) : State :=
  { s with
    hostQueue := if s.active = .host then s.hostQueue.tail else s.hostQueue
    renderQueue := if s.active = .render then s.renderQueue.tail else s.renderQueue }

/-- `respond(v)`: the issuing port gets the word and its command is done (rule R9). -/
def State.respond (s : State) (v : Word) : State :=
  { s.retire with responses := s.responses ++ [⟨s.active, v⟩] }

/-- FAULT ENTRY, `raise Fault(code, {port, cmd})`: the record is written and nothing else of the block changes; no response
(rule R186). That the block is halted from then on is `State.halted`, which every agent's step asks first. -/
def State.raise (s : State) (code : FaultCode) (cmd : Word) : State :=
  { s.retire with fault := some ⟨code, s.active, cmd⟩ }

/-- The block is halted by a recorded fault (rule R186). -/
def State.halted (s : State) : Bool := s.fault.isSome

/-- Port `H` is held: an ENCODE that passes its fault checks is offered while a job is in flight (rules R130, R187, R223). -/
def State.hostHeld (s : State) : Bool :=
  s.busy &&
    match s.hostQueue with
    | [] => false
    | t :: _ =>
        match decode t.cmd with
        | .ok (.encode len) => frameSizeOk s.cfg len t.payload
        | .ok _ => false
        | .error _ => false

/-- RESET (rules R210, R211): every element at its reset value, the configuration unchanged, a held ENCODE released unperformed.
The environment's later offers, the responses already returned and the moves still scripted are outside the block and stay. -/
def State.applyReset (s : State) : State :=
  { State.resetFor s.cfg with
    hostQueue := if s.hostHeld then s.hostQueue.tail else s.hostQueue
    renderQueue := s.renderQueue
    active := s.active
    responses := s.responses
    schedule := s.schedule
    tick := s.tick
    patience := s.patience }

/-- The 3-bit value of a fault code (rule R180); 0 and 5 to 7 are never raised. -/
def FaultCode.bits (c : FaultCode) : BitVec 3 :=
  match c with
  | .illegalCmd => 1#3
  | .range => 2#3
  | .notReady => 3#3
  | .frameSize => 4#3

end Sys2Proof.Machine
end

