-- ==== Sys2Proof/Machine/Flags.lean ====
section
/-! DEFINITION. The three flags READY, BUSY and CUR_GEN (rules R25 to R27, R33): how they are read as the status word (rules R31,
R144) and the two places that write them, the accept and the commit of an ENCODE (rules R130, R133). -/

namespace Sys2Proof.Machine

/-- `S.curGen` as it reads: hardwired to 0 when `G = 1` (rules R27, R31). -/
def State.visibleGen (s : State) : BitVec 1 := if s.cfg.generations = 2 then s.curGen else 0#1

/-- The status word: `READY` in bit 0, `BUSY` in bit 1, `CUR_GEN` in bit 2, zeros above (rules R31, R144). -/
def State.statusWord (s : State) : Word :=
  (s.visibleGen.setWidth 32 <<< 2) ||| ((BitVec.ofBool s.busy).setWidth 32 <<< 1) ||| (BitVec.ofBool s.ready).setWidth 32

/-- Accepting an ENCODE of `frame`: the job of rule R130, and `S.busy <- 1`. -/
def State.startJob (s : State) (frame : List Byte) : State :=
  { s with
    job := some
      { frame := frame
        tg := targetGen s.cfg s.curGen
        framePending := List.range s.cfg.frameBytes
        wordPending := allWordPos s.cfg }
    busy := true }

/-- The commit's atomic write (rules R64, R133): `S.curGen` only when `G = 2`, `S.ready <- 1`, `S.busy <- 0`, `S.job <- none`. -/
def State.commit (s : State) (tg : BitVec 1) : State :=
  { s with
    curGen := if s.cfg.generations = 2 then tg else s.curGen
    ready := true
    busy := false
    job := none }

end Sys2Proof.Machine
end

