-- ==== Sys2Proof/Machine/DelayTable.lean ====
section
/-! DEFINITION. The meaning of RDDELAY (rule R164). -/

namespace Sys2Proof.Machine

/-- RDDELAY (rule R164): the table entry of the phase, at any time. -/
def execRddelay (phase : BitVec 3) (s : State) : Host.Outcome State Fault Refusal := .next (s.respond (s.lut phase))

end Sys2Proof.Machine
end

