-- ==== Sys2Proof/Machine/Encode.lean ====
section
/-! DEFINITION. The meaning of ENCODE (rule R130). -/

namespace Sys2Proof.Machine

/-- ENCODE (rule R130), in the order of rule R187: illegal on port `R`; E_FRAME_SIZE when the frame is not whole, busy or not;
held while a job is in flight (nothing changes, the offer stays on the port); else the job starts with the payload latched. -/
def execEncode (len : BitVec 24) (s : State) : Host.Outcome State Fault Refusal :=
  if s.active = .render then .next (s.raise .illegalCmd (encode (.encode len)))
  else if frameSizeOk s.cfg len s.payload then
    if s.busy then .next s else .next (s.retire.startJob s.payload)
  else .next (s.raise .frameSize (encode (.encode len)))

end Sys2Proof.Machine
end

