-- ==== Sys2Proof/Machine/ReadPort.lean ====
section
/-! DEFINITION. The meanings of RDWORD, RDSTATUS and RDFRAME (rules R140 to R147). -/

namespace Sys2Proof.Machine

/-- The end of a read of a storage cell (rules R140, R183): E_NOT_READY before the first commit or where the cell holds no
value, else the response. -/
def State.respondCell (s : State) (cell : Option Word) (cmd : Word) : State :=
  if s.ready then
    match cell with
    | some w => s.respond w
    | none => s.raise .notReady cmd
  else s.raise .notReady cmd

/-- RDWORD (rules R141 to R143): range, then readiness, then the cell of the generation the command names. -/
def execRdword (gen : BitVec 1) (plane : BitVec 3) (row idx : BitVec 12) (s : State) : Host.Outcome State Fault Refusal :=
  if rdwordInRange s.cfg gen row idx then
    .next (s.respondCell (s.bufRead gen (wordPosOf plane row idx)) (encode (.rdword gen plane row idx)))
  else .next (s.raise .range (encode (.rdword gen plane row idx)))

/-- RDSTATUS (rule R144). -/
def execRdstatus (s : State) : Host.Outcome State Fault Refusal := .next (s.respond s.statusWord)

/-- RDFRAME (rules R97, R145): the byte of logical row `row`, column `col`, zero-extended. -/
def execRdframe (row col : BitVec 12) (s : State) : Host.Outcome State Fault Refusal :=
  if rdframeInRange s.cfg row col then
    .next (s.respondCell ((s.frameRead (frameIndex s.cfg row.toNat col.toNat)).map (·.setWidth 32))
      (encode (.rdframe row col)))
  else .next (s.raise .range (encode (.rdframe row col)))

end Sys2Proof.Machine
end

