-- ==== Sys2Proof/Machine/Dispatch.lean ====
section
/-! DEFINITION. One arm per command: the command is the one on the active port (rule R51). -/

namespace Sys2Proof.Machine

def exec (i : Instr) (s : State) : Host.Outcome State Fault Refusal :=
  match i with
  | .encode len => Sys2Proof.Machine.execEncode len s
  | .rdword gen plane row idx => Sys2Proof.Machine.execRdword gen plane row idx s
  | .rddelay phase => Sys2Proof.Machine.execRddelay phase s
  | .rdstatus => Sys2Proof.Machine.execRdstatus s
  | .rdframe row col => Sys2Proof.Machine.execRdframe row col s

end Sys2Proof.Machine
end

