-- ==== Sys2Proof/Machine/PlaneCode.lean ====
section
/-! DEFINITION. The encoding function `enc` (rules R110 to R122), a pure function of one raw frame, written as the spec's own
algorithm: row reordering, column groups, the 24 stages, the accumulation from the top bit, the end-of-row marker, and the
row-control word. -/

namespace Sys2Proof.Machine

/-- `stagePos(j)`: the bit of group position `j` (rule R116). -/
def stagePos (j : Nat) : Nat := j + 1 + (if 6 ≤ j then 1 else 0) + (if 13 ≤ j then 1 else 0)

/-- The logical row of output row `y`: `l = R - 1 - y` (rule R111). -/
def logicalRow (c : Config) (y : Nat) : Nat := c.rowCount - 1 - y

/-- The data bit `d_j`: bit `b` of the pixel of logical row `l`, column `20g + j` (rules R112, R113). -/
def dataBit (c : Config) (frame : List Byte) (b y g j : Nat) : Bool :=
  (frame.getD (logicalRow c y * c.colCount + (moduleSize * g + j)) 0#8).getLsbD b

/-- The placeholder bit `P = 0` (rule R114). -/
def placeholder : Bool := false

/-- The 24 stages `s_0 .. s_23` in the order they are shifted in (rule R114). -/
def stages (d : Nat → Bool) : List Bool :=
  placeholder :: (List.range' 0 6).map d ++ placeholder :: (List.range' 6 7).map d ++
    placeholder :: (List.range' 13 7).map d ++ [placeholder]

/-- One shift of the accumulator: right by one, the stage in at bit 31 (rule R115). -/
def shiftIn (v : Word) (stage : Bool) : Word := (v >>> 1) ||| ((BitVec.ofBool stage).setWidth 32 <<< 31)

/-- The accumulation of rule R115: every stage shifted in, then the right alignment by 8. -/
def accumulate (ss : List Bool) : Word := (ss.foldl shiftIn 0#32) >>> 8

/-- `pixelWord(F, b, y, k)` (rules R117, R118): the accumulated stages, with bit 31 set on the last column-group. -/
def pixelWord (c : Config) (frame : List Byte) (b y k : Nat) : Word :=
  let v := accumulate (stages (dataBit c frame b y k))
  if k + 1 = c.colModules then v ||| (1#32 <<< 31) else v

/-- The row index the pulse-count rule reads (rule R119). -/
def pulseRow (c : Config) (y : Nat) : Nat :=
  match c.pulseRowBasis with
  | .output => y % moduleSize
  | .logical => logicalRow c y % moduleSize

/-- The row-shift pulse count: one more on rows 0, 6 and 13 of a module (rule R120). -/
def pulseCount (c : Config) (y : Nat) : Nat :=
  if pulseRow c y = 0 ∨ pulseRow c y = 6 ∨ pulseRow c y = 13 then 2 else 1

/-- The first-row flag (rule R121). -/
def firstRow (y : Nat) : Bool := decide (y = 0)

/-- `ctrlWord(y)` (rule R122): the flag in bit 0, the count in bits 2:1. -/
def ctrlWord (c : Config) (y : Nat) : Word :=
  (BitVec.ofBool (firstRow y)).setWidth 32 ||| (BitVec.ofNat 32 (pulseCount c y) <<< 1)

/-- `enc(F)[b][y][k]` (rule R110): pixel words below `CM`, the row-control word at `CM`. -/
def enc (c : Config) (frame : List Byte) (p : WordPos) : Word :=
  if p.idx < c.colModules then pixelWord c frame p.plane p.row p.idx else ctrlWord c p.row

end Sys2Proof.Machine
end

