-- ==== Sys2Proof/Machine/Engine.lean ====
section
/-! DEFINITION. The encoder engine `E`: the three kinds of step of rules R131 to R133. The engine never faults (rule R134), so a
step of it is a plain function of the state. -/

namespace Sys2Proof.Machine

/-- The member of a set that a choice number selects: any member is selected by some number, and of one member there is no
choice. -/
def pick {α : Type} (set : List α) (choice : Nat) : Option α :=
  match set with
  | [] => none
  | [a] => some a
  | a :: b :: rest => (a :: b :: rest)[choice % (rest.length + 2)]?

/-- A set without one member. -/
def without {α : Type} [DecidableEq α] (set : List α) (a : α) : List α := set.filter fun x => decide (x ≠ a)

/-- Frame-copy write of cell `n` (rule R131). -/
def engineFrameWrite (j : Job) (n : Nat) (s : State) : State :=
  { s.frameWrite n (j.frame.getD n 0#8) with job := some { j with framePending := without j.framePending n } }

/-- Buffer-word write of position `p` (rule R132). -/
def engineWordWrite (j : Job) (p : WordPos) (s : State) : State :=
  { s.bufWrite j.tg p (enc s.cfg j.frame p) with job := some { j with wordPending := without j.wordPending p } }

/-- One step of the engine: a frame-copy write while any is pending, then a buffer-word write while any is pending, then the
commit (rules R54, R131 to R133). Without a job, or in a halted block, the engine takes no step (rules R52, R186). -/
def engineStep (choice : Nat) (s : State) : State :=
  if s.halted then s
  else
    match s.job with
    | none => s
    | some j =>
        match pick j.framePending choice with
        | some n => engineFrameWrite j n s
        | none =>
            match pick j.wordPending choice with
            | some p => engineWordWrite j p s
            | none => s.commit j.tg

end Sys2Proof.Machine
end

