-- ==== Sys2Proof/Machine/Agents.lean ====
section
/-! DEFINITION. The steps of the agents (rules R10, R52): a port taking the command offered to it, a scripted move, and the free
choice of an agent once nothing is scripted. -/

namespace Sys2Proof.Machine

/-- The offered word runs as the command it decodes to; a word that is no command is E_ILLEGAL_CMD with that word (rules R89 to
R91, R181). -/
def runCommand (cmd : Word) (s : State) : Host.Outcome State Fault Refusal :=
  match decode cmd with
  | .ok i => exec i s
  | .error _ => .next (s.raise .illegalCmd cmd)

/-- A step of port `p`: the transaction at the head of its queue. A halted block accepts no command, and a port that is offered
nothing has no step (rules R52, R186). -/
def portStep (p : Port) (s : State) : Host.Outcome State Fault Refusal :=
  if s.halted then .next s
  else
    match s.queue p with
    | [] => .next s
    | t :: _ => runCommand t.cmd { s with active := p }

/-- A scripted move. -/
def moveStep (m : Move) (s : State) : Host.Outcome State Fault Refusal :=
  match m with
  | .port p => portStep p s
  | .engine choice => .next (engineStep choice s)
  | .reset => .next s.applyReset

/-- The agents that have a step now (rules R52, R130, R186). -/
def State.enabled (s : State) : List Agent :=
  if s.halted then []
  else
    (if s.hostQueue.isEmpty || s.hostHeld then [] else [.port .host]) ++
      (if s.renderQueue.isEmpty then [] else [.port .render]) ++
      (if s.job.isSome then [.engine] else [])

/-- The agent that steps when nothing is scripted: the only enabled one, or a free choice among several (rule R52), the engine
once it has been passed over long enough (rule R134). -/
def State.chosenAgent (s : State) : Option Agent :=
  match s.enabled with
  | [] => none
  | [a] => some a
  | a :: b :: rest =>
      if s.job.isSome ∧ s.patience = 0 then some .engine
      else (a :: b :: rest)[Config.freeAgent s.tick % (rest.length + 2)]?

/-- The scheduler's bookkeeping when agent `a` steps: the counter advances; the engine's patience is taken anew when the engine
steps or has no step, and shrinks when the engine is passed over (rule R134, log entry 5). -/
def State.advance (s : State) (a : Agent) : State :=
  { s with
    tick := s.tick + 1
    patience := if a = .engine ∨ s.job.isNone then Config.freePatience s.tick else s.patience - 1 }

/-- A step when nothing is scripted. With no agent enabled the idle block stays as it is; a halted block is for good. -/
def freeStep (s : State) : Host.Outcome State Fault Refusal :=
  match s.fault with
  | some r => .fault (.halted r)
  | none =>
      match s.chosenAgent with
      | none => .next s
      | some .engine => .next (engineStep (Config.freeChoice s.tick) (s.advance .engine))
      | some (.port p) => portStep p (s.advance (.port p))

end Sys2Proof.Machine
end

