-- ==== Sys2Proof/Machine/Step.lean ====
section
/-! DEFINITION. The step of the whole block, and where its next command is fetched from. -/

namespace Sys2Proof.Machine

/-- One atomic step (rules R10, R52): the next scripted move, or a free move when none is scripted. A block whose configuration
fails rule R6 is refused. -/
def step (s : State) : Host.Outcome State Fault Refusal :=
  if s.cfg.wf then
    match s.schedule with
    | m :: rest => moveStep m { s with schedule := rest }
    | [] => freeStep s
  else .refused .illFormedConfig

/-- The payload of zeros that a command word takes (rule R80). -/
def zeroPayload (cmd : Word) : List Byte :=
  match decode cmd with
  | .ok i => List.replicate i.payloadLength 0#8
  | .error _ => []

/-- `s` with the word given as the number `w` of `nbits` bits offered at the head of port `H`, its payload zeros, and that port's
step scripted next (log entry 17). -/
def State.withFetchWord (s : State) (nbits w : Nat) : State :=
  { s with
    hostQueue := ⟨BitVec.ofNat 32 (w % 2 ^ nbits), zeroPayload (BitVec.ofNat 32 (w % 2 ^ nbits))⟩ :: s.hostQueue
    schedule := .port .host :: s.schedule }

end Sys2Proof.Machine
end

