-- ==== Sys2Proof/Machine/Environment.lean ====
section
/-! DEFINITION. The environment's side of the ports, as the spec describes it: the assembler's frame data (rule R92), the
pseudo-commands (rule R93), the application's `setFrame` (rule R68) and the render consumer's pass (rules R66, R70). None of it
is enforced by the block; it builds what the ports are offered. -/

namespace Sys2Proof.Machine

/-- `.frame fill v` (rule R92). -/
def frameFill (c : Config) (v : Byte) : List Byte := List.replicate c.frameBytes v

/-- `.frame set v; n:v, ...` (rule R92). -/
def frameSet (c : Config) (v : Byte) (changes : List (Nat × Byte)) : List Byte :=
  changes.foldl (fun f nv => f.set nv.1 nv.2) (frameFill c v)

/-- `setFrame`: one ENCODE with its payload (rule R68). -/
def setFrame (frame : List Byte) : Transaction := ⟨encode (.encode (BitVec.ofNat 24 frame.length)), frame⟩

/-- A read command as a port is offered it. -/
def offer (i : Instr) : Transaction := ⟨encode i, []⟩

/-- The command `i` offered on port `p`, after what is offered there already. -/
def State.offerOn (s : State) (p : Port) (i : Instr) : State :=
  match p with
  | .host => { s with hostQueue := s.hostQueue ++ [offer i] }
  | .render => { s with renderQueue := s.renderQueue ++ [offer i] }

/-- The responses port `p` has got since the first `start` of all responses, oldest first. -/
def State.answersOn (s : State) (p : Port) (start : Nat) : List Word :=
  ((s.responses.drop start).filter fun r => decide (r.port = p)).map Response.value

/-- The pseudo-commands (rule R93). -/
inductive Pseudo where
  | rdrow (gen : BitVec 1) (plane : BitVec 3) (row : BitVec 12)
  | rdctrl (gen : BitVec 1) (plane : BitVec 3) (row : BitVec 12)
  | rdpix (gen : BitVec 1) (plane : BitVec 3) (row grp : BitVec 12)
  | waitidle
  deriving DecidableEq, Repr

/-- The commands of a WAITIDLE whose commands have got the responses `answers` so far: RDSTATUS, and after a response another one
while that response has `BUSY = 1` (rule R93). -/
def waitidleCommands (answers : List Word) : List Instr :=
  match answers with
  | [] => [.rdstatus]
  | w :: rest => .rdstatus :: if w.getLsbD 1 then waitidleCommands rest else []

/-- The commands a pseudo-command stands for, in order, its commands having got the responses `answers` so far (rule R93). Only
WAITIDLE depends on them; RDPIX needs `grp < COL_MODULES`. -/
def Pseudo.expand (c : Config) (q : Pseudo) (answers : List Word) : Option (List Instr) :=
  match q with
  | .rdrow gen plane row =>
      some ((List.range c.wordsPerRow).map fun k => .rdword gen plane row (BitVec.ofNat 12 k))
  | .rdctrl gen plane row => some [.rdword gen plane row (BitVec.ofNat 12 c.colModules)]
  | .rdpix gen plane row grp => if grp.toNat < c.colModules then some [.rdword gen plane row grp] else none
  | .waitidle => some (waitidleCommands answers)

/-- The next command of a pseudo-command: the one after those that have been answered. None is left once it is over, or where it
has no expansion. -/
def Pseudo.next (c : Config) (q : Pseudo) (answers : List Word) : Option Instr :=
  match q.expand c answers with
  | some commands => commands[answers.length]?
  | none => none

/-- One move of the environment that runs a pseudo-command on port `p` (rule R93): its next command offered on that port, in view of
the responses the port has got since the pseudo-command began (`start` responses had been returned then). It is made when the port's
last command has been answered; between two of them any agent may step, so the pseudo-command is not atomic. -/
def Pseudo.offerNext (q : Pseudo) (p : Port) (start : Nat) (s : State) : Option State :=
  (q.next s.cfg (s.answersOn p start)).map (s.offerOn p)

/-- One row of a render pass: its pixel words in order, its row-control word, then the phase's delay value (rule R66). -/
def renderRow (c : Config) (gen : BitVec 1) (phase : BitVec 3) (y : Nat) : List Instr :=
  ((List.range c.wordsPerRow).map fun k => .rdword gen phase (BitVec.ofNat 12 y) (BitVec.ofNat 12 k)) ++ [.rddelay phase]

/-- One render iteration after its RDSTATUS (rule R66): nothing when `READY = 0`, else the rows in order. `gen y` is the
generation latched for row group `y` (rule R70). -/
def renderPass (c : Config) (status : Word) (gen : Nat → BitVec 1) (phase : BitVec 3) : List Instr :=
  if status.getLsbD 0 then (List.range c.rowCount).flatMap fun y => renderRow c (gen y) phase y else []

/-- The phase of the next iteration: the same while not ready, else one more, wrapping at 8 (rules R66, R67). -/
def nextPhase (status : Word) (phase : BitVec 3) : BitVec 3 := if status.getLsbD 0 then phase + 1 else phase

end Sys2Proof.Machine
end

