-- ==== Sys2Proof/Safety.lean ====
section
/-! DEFINITION. What claims about the block are stated with: the end of a run (rule R223), what a command leaves of the block
(rules R34, R147, R186), the structural invariant of the state, and what the storage holds in terms of the last committed frame
(rules R54 to R57, R135, R136). -/

namespace Sys2Proof.Machine

/-- A quiescent state: no job, no fault, no held port (rule R223). -/
def State.Quiescent (s : State) : Prop := s.job = none ∧ s.fault = none ∧ s.hostHeld = false

/-- A run ends well at a quiescent state (rule R223). -/
def State.EndsWell (s : State) : Prop := s.Quiescent

/-- A run has failed once a fault is recorded (rule R223). -/
def State.Failed (s : State) : Prop := s.fault ≠ none

/-- What is observed of a quiescent state (rule R223). -/
structure Observation where
  buf       : Memory Word
  frameCopy : Memory Byte
  ready     : Bool
  curGen    : BitVec 1
  responses : List Response
  deriving DecidableEq, Repr

/-- The observation of a state (rule R223). -/
def State.observe (s : State) : Observation := ⟨s.buf, s.frameCopy, s.ready, s.curGen, s.responses⟩

/-- Every element of the block but the fault record is the same, every cell of both storage spaces reads the same. -/
structure SameBlock (s t : State) : Prop where
  cfg       : t.cfg = s.cfg
  frameRead : ∀ n, t.frameRead n = s.frameRead n
  bufRead   : ∀ i, Memory.read t.buf i = Memory.read s.buf i
  ready     : t.ready = s.ready
  busy      : t.busy = s.busy
  curGen    : t.curGen = s.curGen
  job       : t.job = s.job

/-- The active port's transaction has been taken and nothing else of the environment's side has moved. -/
structure Taken (s t : State) : Prop where
  taken    : t.queue s.active = (s.queue s.active).tail
  other    : ∀ p, p ≠ s.active → t.queue p = s.queue p
  active   : t.active = s.active
  schedule : t.schedule = s.schedule
  tick     : t.tick = s.tick
  patience : t.patience = s.patience

/-- A command that responds with `w` and has no other effect (rules R9, R147). -/
structure Responds (s t : State) (w : Word) : Prop where
  response : t.responses = s.responses ++ [⟨s.active, w⟩]
  block    : SameBlock s t
  fault    : t.fault = s.fault
  offer    : Taken s t

/-- A command that faults: the record, no response, nothing else (rule R186). -/
structure Faults (s t : State) (code : FaultCode) (cmd : Word) : Prop where
  fault     : t.fault = some ⟨code, s.active, cmd⟩
  responses : t.responses = s.responses
  block     : SameBlock s t
  offer     : Taken s t

/-- Agent `a` is the one whose step is next: its move is scripted, or nothing is scripted and it is the chosen one (rule R52). -/
def State.Moves (s : State) (a : Agent) : Prop :=
  (s.schedule = [] ∧ s.chosenAgent = some a) ∨
    match a with
    | .port p => ∃ rest, s.schedule = .port p :: rest
    | .engine => ∃ choice rest, s.schedule = .engine choice :: rest

/-- A step of port `H` that accepts an ENCODE (rule R130). -/
structure Accepts (s t : State) : Prop where
  moves : s.Moves (.port .host)
  fault : s.fault = none
  idle  : s.busy = false
  busy  : t.busy = true
  took  : ∃ tr rest len j, s.hostQueue = tr :: rest ∧ decode tr.cmd = .ok (.encode len) ∧ len.toNat = s.cfg.frameBytes ∧
            t.hostQueue = rest ∧ t.job = some j ∧ j.frame = tr.payload

/-- A step of the engine that writes frame-copy cell `n` of its job (rule R131): the whole byte, and the pending set alone of the job. -/
structure WritesFrameCell (s t : State) (n : Nat) : Prop where
  moves : s.Moves .engine
  fault : s.fault = none
  wrote : ∃ j, s.job = some j ∧ n ∈ j.framePending ∧ t.frameRead n = some (j.frame.getD n 0#8) ∧
            t.job = some { j with framePending := without j.framePending n }

/-- A step of the engine that writes word position `p` of its job (rule R132), at the buffer index `a`: the whole word, and the pending
set alone of the job. -/
structure WritesWord (s t : State) (p : WordPos) (a : Nat) : Prop where
  moves : s.Moves .engine
  fault : s.fault = none
  wrote : ∃ j, s.job = some j ∧ j.framePending = [] ∧ p ∈ j.wordPending ∧ a = bufIndex s.cfg j.tg p ∧
            Memory.read t.buf a = some (enc s.cfg j.frame p) ∧
            t.job = some { j with wordPending := without j.wordPending p }

/-- A step of the engine that is the commit of its job (rule R133). -/
structure Commits (s t : State) : Prop where
  moves : s.Moves .engine
  fault : s.fault = none
  wrote : ∃ j, s.job = some j ∧ j.framePending = [] ∧ j.wordPending = [] ∧ t.job = none ∧ t.busy = false ∧ t.ready = true ∧
            t.curGen = if s.cfg.generations = 2 then j.tg else s.curGen

/-- A step of a port that records a fault of the word at its head (rules R185, R186). -/
structure Records (s t : State) (r : FaultRecord) : Prop where
  moves : s.Moves (.port r.port)
  clear : s.fault = none
  fault : t.fault = some r
  head  : ∃ tr rest, s.queue r.port = tr :: rest ∧ r.cmd = tr.cmd

/-- The in-flight job against the rest of the state: its frame is whole, its target is the inactive generation, its pending sets
lie in the spaces, frame cells go first (rule R54), and every cell it has written holds its value (rules R28, R131, R132). -/
structure JobInv (s : State) (j : Job) : Prop where
  frame       : j.frame.length = s.cfg.frameBytes
  target      : j.tg = targetGen s.cfg s.curGen
  frameRange  : ∀ n ∈ j.framePending, n < s.cfg.frameBytes
  frameNodup  : j.framePending.Nodup
  wordRange   : ∀ p ∈ j.wordPending, p.inRange s.cfg = true
  wordNodup   : j.wordPending.Nodup
  order       : j.framePending ≠ [] → ∀ p : WordPos, p.inRange s.cfg = true → p ∈ j.wordPending
  frameCells  : ∀ n, n < s.cfg.frameBytes → n ∉ j.framePending → s.frameRead n = some (j.frame.getD n 0#8)
  wordCells   : ∀ p : WordPos, p.inRange s.cfg = true → p ∉ j.wordPending →
                  s.bufRead j.tg p = some (enc s.cfg j.frame p)

/-- The structural invariant of the state. -/
structure State.Inv (s : State) : Prop where
  config    : s.cfg.wf = true
  frameWf   : Memory.wf s.cfg.frameBytes s.frameCopy = true
  bufWf     : Memory.wf s.cfg.bufWords s.buf = true
  busyJob   : s.busy = s.job.isSome
  oneGen    : s.cfg.generations = 1 → s.curGen = 0#1
  job       : ∀ j, s.job = some j → JobInv s j
  /-- With two generations the current one is unwritten until the first commit (rule R136). -/
  unwritten : s.cfg.generations = 2 → s.ready = false →
                ∀ p : WordPos, p.inRange s.cfg = true → s.bufRead s.curGen p = none

/-- What the frame copy and the current generation hold when `f` is the last committed frame (rules R53 to R57, R135, R136): its
bytes and words, but where the job in flight has already written the cell, the job's. -/
structure State.Holds (s : State) (f : List Byte) : Prop where
  whole  : f.length = s.cfg.frameBytes
  bytes  : ∀ n, n < s.cfg.frameBytes →
             s.frameRead n = some
               (match s.job with
                | some j => if n ∈ j.framePending then f.getD n 0#8 else j.frame.getD n 0#8
                | none => f.getD n 0#8)
  words  : ∀ p : WordPos, p.inRange s.cfg = true →
             s.bufRead s.curGen p = some
               (match s.job with
                | some j => if j.tg = s.curGen ∧ p ∉ j.wordPending then enc s.cfg j.frame p else enc s.cfg f p
                | none => enc s.cfg f p)

/-- Once READY is set, the storage holds some committed frame in the sense of `State.Holds`. -/
def State.Coherent (s : State) : Prop := s.ready = true → ∃ f, s.Holds f

/-- `n` moves in a row, stopping at the first fault or refusal. -/
abbrev runSteps (n : Nat) (s : State) : Host.Outcome State Fault Refusal := core.run n s

end Sys2Proof.Machine
end

