-- ==== Sys2Proof/Certificates/Slice0/Obligations.lean ====
section
/-! DEFINITION. The statements for the provers. Each docstring names the rule of spec/ it formalises. No statement names a value of
the model's own reset fields or of a free value: where the schedule is empty, every statement holds whatever the free values are.
Where a statement speaks of a scripted move or of an offer on a port, that form is the model's (log entries 3 and 4); what the move
does is the rule's. -/

open Sys2Proof Sys2Proof.Machine

/-! ### Encoding (30_encoding.md) -/

/-- Decoding the word of any command gives the command back, every operand at every value (rules R81 to R87). -/
def Obligations.DecodeEncodeRoundTrip : Prop := ∀ i : Instr, decode (encode i) = .ok i

/-- Rule R91: a word is illegal by rule R89 (its `OP` is reserved), or illegal by rule R90 (a defined `OP` with a reserved bit set),
or it is the word of one command and of no other. The three cases exclude each other by `OP` and by the reserved bits. -/
def Obligations.EveryWordIsOneCommandOrIllegal : Prop :=
  ∀ w : Word,
    let op := (w.extractLsb' 28 4).toNat
    let reservedBit : Prop :=
      (op = 1 ∧ w.extractLsb' 24 4 ≠ 0) ∨ (op = 3 ∧ (w.getLsbD 27 = true ∨ w.extractLsb' 0 24 ≠ 0)) ∨
        (op = 4 ∧ w.extractLsb' 0 28 ≠ 0) ∨ (op = 5 ∧ w.extractLsb' 24 4 ≠ 0)
    (op = 0 ∨ 6 ≤ op → decode w = .error .reservedOp) ∧
    (reservedBit → decode w = .error .reservedBits) ∧
    (1 ≤ op ∧ op ≤ 5 ∧ ¬ reservedBit →
      ∃ i, decode w = .ok i ∧ encode i = w ∧ ∀ i', encode i' = w → i' = i)

/-- Rule R92's table of words, and the widths of rule R87: each command's word is its match with the operands shifted in. -/
def Obligations.AssemblerWordsOfTheCommands : Prop :=
  (∀ len, encode (.encode len) = 0x10000000#32 ||| len.setWidth 32) ∧
  (∀ gen plane row idx, encode (.rdword gen plane row idx) =
    0x20000000#32 ||| gen.setWidth 32 <<< 27 ||| plane.setWidth 32 <<< 24 ||| row.setWidth 32 <<< 12 ||| idx.setWidth 32) ∧
  (∀ phase, encode (.rddelay phase) = 0x30000000#32 ||| phase.setWidth 32 <<< 24) ∧
  encode .rdstatus = 0x40000000#32 ∧
  (∀ row col, encode (.rdframe row col) = 0x50000000#32 ||| row.setWidth 32 <<< 12 ||| col.setWidth 32)

/-- Words written out in spec/95_test_vectors.md, one and more per command, decode as the vectors say. -/
def Obligations.SpecWordsDecodeAsGiven : Prop :=
  decode 0x10000190#32 = .ok (.encode 400) ∧ decode 0x20013000#32 = .ok (.rdword 0 0 19 0) ∧
  decode 0x2D003001#32 = .ok (.rdword 1 5 3 1) ∧ decode 0x37000000#32 = .ok (.rddelay 7) ∧
  decode 0x40000000#32 = .ok .rdstatus ∧ decode 0x50013013#32 = .ok (.rdframe 19 19) ∧
  decode 0x11000190#32 = .error .reservedBits ∧ decode 0xF0000000#32 = .error .reservedOp

/-! ### Configuration and delay table (00_scope.md, 42_delay_lut.md) -/

/-- The bounds of rule R5: in a well-formed configuration every row, column and word index fits its 12-bit field and `FRAME_BYTES`
fits the 24-bit `LEN`. -/
def Obligations.GeometryFitsTheCommandFields : Prop :=
  ∀ c : Config, c.wf = true →
    c.rowCount < 2 ^ 12 ∧ c.colCount < 2 ^ 12 ∧ c.wordsPerRow ≤ 2 ^ 12 ∧ c.frameBytes < 2 ^ 24 ∧ 0 < c.frameBytes

/-- Rule R161: the check is the rule's, entry by entry, and a table that fails it is refused; that the refusal is the step's is the
model's choice (log entry 12). -/
def Obligations.DelayTableCheckIsTheRule : Prop :=
  (∀ d : Vector Word 8, delayTableOk d = true ↔
    (∀ p : Fin 8, 1 ≤ d[p].toNat ∧ d[p].toNat ≤ 2 ^ 32 - 1) ∧
    ∀ p : Fin 7, 2 * d[p.castSucc].toNat ≤ d[p.succ].toNat ∧ 2 * d[p.succ].toNat ≤ 7 * d[p.castSucc].toNat) ∧
  ∀ s : State, delayTableOk s.cfg.delayLut = false → step s = .refused .illFormedConfig

/-- Rule R162: strict increase from phase to phase, and the two bounds on the last entry. -/
def Obligations.DelayValuesIncreaseStrictly : Prop :=
  ∀ d : Vector Word 8, delayTableOk d = true →
    (∀ p q : Fin 8, p < q → d[p].toNat < d[q].toNat) ∧
    128 * d[0].toNat ≤ d[7].toNat ∧ 2 ^ 7 * d[7].toNat ≤ 7 ^ 7 * d[0].toNat

/-- Rule R6: the block steps exactly in the well-formed configurations, each condition written out; that the refusal is the step's is
the model's choice (log entry 12). -/
def Obligations.OnlyIllFormedConfigurationsAreRefused : Prop :=
  ∀ s : State,
    (1 ≤ s.cfg.rowModules ∧ s.cfg.rowModules ≤ 204 ∧ 1 ≤ s.cfg.colModules ∧ s.cfg.colModules ≤ 204 ∧
        (s.cfg.generations = 1 ∨ s.cfg.generations = 2) ∧ delayTableOk s.cfg.delayLut = true →
      ∀ r, step s ≠ .refused r) ∧
    (¬ (1 ≤ s.cfg.rowModules ∧ s.cfg.rowModules ≤ 204 ∧ 1 ≤ s.cfg.colModules ∧ s.cfg.colModules ≤ 204 ∧
        (s.cfg.generations = 1 ∨ s.cfg.generations = 2) ∧ delayTableOk s.cfg.delayLut = true) →
      step s = .refused .illFormedConfig)

/-! ### The encoding function (40_encode.md, sections 1 and 2) -/

/-- Rule R116: after the accumulation stage `i` stands at bit `i` and bits 31:24 are 0; hence position `j` stands at `stagePos j`,
with the rule's table of positions, and bits 0, 7, 15, 23 are the placeholders. The insertion at bit 31 (R115) is the spec's own
reading, its decision D13. -/
def Obligations.AccumulatedStagesStandInOrder : Prop :=
  (∀ ss : List Bool, ss.length = 24 →
    (∀ i, i < 24 → (accumulate ss).getLsbD i = ss.getD i false) ∧ ∀ i, 24 ≤ i → (accumulate ss).getLsbD i = false) ∧
  (∀ d : Nat → Bool,
    (∀ j, j < 20 → (accumulate (stages d)).getLsbD (stagePos j) = d j) ∧
    ∀ i, i = 0 ∨ i = 7 ∨ i = 15 ∨ i = 23 → (accumulate (stages d)).getLsbD i = false) ∧
  (List.range 20).map stagePos = [1, 2, 3, 4, 5, 6, 8, 9, 10, 11, 12, 13, 14, 16, 17, 18, 19, 20, 21, 22]

/-- Rule R118: the pixel word is the OR of its 20 pixel bits at their stage positions and of the end-of-row marker. Bit
order and group order are the spec's own readings, its decisions D13 and D14. -/
def Obligations.PixelWordIsTheOrOfItsBits : Prop :=
  ∀ (c : Config) (f : List Byte) (b y k : Nat), k < c.colModules →
    pixelWord c f b y k =
      (List.range 20).foldl (fun v j =>
          v ||| (BitVec.ofBool ((f.getD ((c.rowCount - 1 - y) * c.colCount + 20 * k + j) 0#8).getLsbD b)).setWidth 32
                  <<< stagePos j) 0#32
        ||| (if k = c.colModules - 1 then 1#32 <<< 31 else 0#32)

/-- Rule R122: the row-control word, its zero upper bits, and the rule's values under both bases. The basis is a parameter (D15); the
rows 0, 6, 13 and the zero upper bits are the spec's own readings, its decisions D16 and D17. -/
def Obligations.RowControlWordValues : Prop :=
  ∀ (c : Config) (y : Nat), 1 ≤ c.rowModules → y < c.rowCount →
    ctrlWord c y = (if y = 0 then 1#32 else 0#32) ||| BitVec.ofNat 32 (pulseCount c y) <<< 1 ∧
    (∀ i, 3 ≤ i → (ctrlWord c y).getLsbD i = false) ∧
    (c.pulseRowBasis = .output →
      ctrlWord c y =
        if y = 0 then 0x00000005#32
        else if y % 20 = 0 ∨ y % 20 = 6 ∨ y % 20 = 13 then 0x00000004#32 else 0x00000002#32) ∧
    (c.pulseRowBasis = .logical →
      (c.rowCount - 1) % 20 = 19 ∧
      ctrlWord c y =
        if y = 0 then 0x00000003#32
        else if (c.rowCount - 1 - y) % 20 = 0 ∨ (c.rowCount - 1 - y) % 20 = 6 ∨ (c.rowCount - 1 - y) % 20 = 13
          then 0x00000004#32 else 0x00000002#32)

/-- Rule R124: every pixel bit is found again at its place, at one place only, and so a frame is determined by its encoding.
Bit order and group order are the spec's own readings, its decisions D13 and D14. -/
def Obligations.EncodedBitsDecodeToThePixels : Prop :=
  ∀ c : Config,
    (∀ (f : List Byte) (b y g j : Nat), b < 8 → y < c.rowCount → g < c.colModules → j < 20 →
      (enc c f ⟨b, y, g⟩).getLsbD (stagePos j) =
        (f.getD ((c.rowCount - 1 - y) * c.colCount + 20 * g + j) 0#8).getLsbD b) ∧
    (∀ n, n < c.frameBytes → ∃! t : Nat × Nat × Nat,
      t.1 < c.rowCount ∧ t.2.1 < c.colModules ∧ t.2.2 < 20 ∧ (c.rowCount - 1 - t.1) * c.colCount + 20 * t.2.1 + t.2.2 = n) ∧
    ∀ f f' : List Byte, f.length = c.frameBytes → f'.length = c.frameBytes →
      (∀ p : WordPos, p.inRange c = true → enc c f p = enc c f' p) → f = f'

/-- Rule R125: of the pixel words of a row exactly the last has bit 31 set. -/
def Obligations.EndOfRowOnTheLastPixelWordOnly : Prop :=
  ∀ (c : Config) (f : List Byte) (b y k : Nat), k < c.colModules →
    ((enc c f ⟨b, y, k⟩).getLsbD 31 = true ↔ k = c.colModules - 1)

/-- Rule R126: of the row-control words of a plane exactly that of output row 0 has bit 0 set. -/
def Obligations.FirstRowFlagOnRowZeroOnly : Prop :=
  ∀ (c : Config) (f : List Byte) (b y : Nat), ((enc c f ⟨b, y, c.colModules⟩).getLsbD 0 = true ↔ y = 0)

/-- Rule R127: only the 20 data bits of a pixel word depend on the frame. -/
def Obligations.OnlyDataBitsDependOnTheFrame : Prop :=
  ∀ (c : Config) (f f' : List Byte) (b y : Nat),
    enc c f ⟨b, y, c.colModules⟩ = enc c f' ⟨b, y, c.colModules⟩ ∧
    ∀ k i, k < c.colModules → (∀ j, j < 20 → i ≠ stagePos j) →
      (enc c f ⟨b, y, k⟩).getLsbD i = (enc c f' ⟨b, y, k⟩).getLsbD i

/-- Rule R128: the encoding of the all-zero frame. -/
def Obligations.AllZeroFrameEncoding : Prop :=
  ∀ (c : Config) (f : List Byte), f.length = c.frameBytes → (∀ n, n < c.frameBytes → f.getD n 0#8 = 0#8) →
    ∀ b y, b < 8 → y < c.rowCount →
      (∀ k, k + 1 < c.colModules → enc c f ⟨b, y, k⟩ = 0x00000000#32) ∧
      (1 ≤ c.colModules → enc c f ⟨b, y, c.colModules - 1⟩ = 0x80000000#32) ∧
      enc c f ⟨b, y, c.colModules⟩ = ctrlWord c y

/-- Rule R129: with `F[0] = 0xFF` and zeros elsewhere, the only data bit set in any plane is bit 1 of word 0 of the last output
row (bit order and group order by the spec's decisions D13 and D14). -/
def Obligations.SinglePixelFrameEncoding : Prop :=
  ∀ (c : Config) (f : List Byte), f.length = c.frameBytes → f.getD 0 0#8 = 0xFF#8 →
    (∀ n, 0 < n → n < c.frameBytes → f.getD n 0#8 = 0#8) →
    ∀ b y k j, b < 8 → y < c.rowCount → k < c.colModules → j < 20 →
      ((enc c f ⟨b, y, k⟩).getLsbD (stagePos j) = true ↔ y = c.rowCount - 1 ∧ k = 0 ∧ j = 0) ∧ stagePos 0 = 1

/-- Rule R123: whatever the frame, every row group of every plane has exactly `W = CM + 1` words, its pixel words in index order
and then its row-control word, and the word positions of a generation in that row group are exactly the indices up to `CM`. -/
def Obligations.EveryRowGroupHasItsWordsInOrder : Prop :=
  ∀ (c : Config) (f : List Byte) (b y : Nat), b < 8 → y < c.rowCount →
    ((List.range c.wordsPerRow).map fun k => enc c f ⟨b, y, k⟩) =
        ((List.range c.colModules).map fun k => pixelWord c f b y k) ++ [ctrlWord c y] ∧
    (∀ k, k < c.colModules → enc c f ⟨b, y, k⟩ = pixelWord c f b y k) ∧ enc c f ⟨b, y, c.colModules⟩ = ctrlWord c y ∧
    (∀ k, (WordPos.mk b y k).inRange c = true ↔ k ≤ c.colModules) ∧
    ∀ k, WordPos.mk b y k ∈ allWordPos c ↔ k ≤ c.colModules

/-! ### ENCODE (40_encode.md, section 3; 60_exceptions.md) -/

/-- Rule R130, acceptance: on port `H`, with a whole frame of `FRAME_BYTES` bytes and no job in flight, the job starts with the
payload latched, its target generation, and every cell pending; `S.busy` is set and nothing else of the block changes. The
payload and the queues are the model's form of the ports (log entry 3). -/
def Obligations.EncodeStartsTheJob : Prop :=
  ∀ (len : BitVec 24) (s : State), s.active = .host → len.toNat = s.cfg.frameBytes →
    s.payload.length = s.cfg.frameBytes → s.busy = false →
    ∃ t j, exec (.encode len) s = .next t ∧ t.job = some j ∧ t.busy = true ∧
      j.frame = s.payload ∧
      (s.cfg.generations = 1 → j.tg = 0#1) ∧ (s.cfg.generations = 2 → j.tg = 1#1 - s.curGen) ∧
      (∀ n, n ∈ j.framePending ↔ n < s.cfg.frameBytes) ∧ j.framePending.Nodup ∧
      (∀ p : WordPos, p ∈ j.wordPending ↔ p.plane < 8 ∧ p.row < s.cfg.rowCount ∧ p.idx < s.cfg.wordsPerRow) ∧
      j.wordPending.Nodup ∧
      t.cfg = s.cfg ∧ (∀ n, t.frameRead n = s.frameRead n) ∧ (∀ i, Memory.read t.buf i = Memory.read s.buf i) ∧
      t.ready = s.ready ∧ t.curGen = s.curGen ∧ t.fault = s.fault ∧ t.responses = s.responses ∧
      t.hostQueue = s.hostQueue.tail ∧ t.renderQueue = s.renderQueue

/-- Rules R130 and R192, the hold: a whole frame offered on port `H` while a job is in flight changes nothing and stays offered
(how the model holds a port: log entry 9). -/
def Obligations.EncodeHoldsWhileBusy : Prop :=
  ∀ (len : BitVec 24) (s : State), s.active = .host → len.toNat = s.cfg.frameBytes →
    s.payload.length = s.cfg.frameBytes → s.busy = true → exec (.encode len) s = .next s

/-- Rule R184: of the ENCODEs on port `H` of an unhalted block whose payload has `LEN` bytes, exactly those with
`LEN != FRAME_BYTES` raise E_FRAME_SIZE, busy or not; the frame is rejected whole: no cell is written and no job starts.
That the faulting transaction is taken from its port (in `Faults`) is the model's choice, log entry 6. -/
def Obligations.FrameSizeFaultExactlyOnWrongLength : Prop :=
  ∀ (len : BitVec 24) (s : State), s.active = .host → s.fault = none → s.payload.length = len.toNat →
    ∃ t, exec (.encode len) s = .next t ∧
      (len.toNat ≠ s.cfg.frameBytes ↔ Faults s t .frameSize (encode (.encode len)))

/-- Rule R51 with rules R130 and R181: an ENCODE on port `R` is illegal whatever its operand. That the faulting
transaction is taken from its port (in `Faults`) is the model's choice, log entry 6. -/
def Obligations.EncodeOnRenderPortIsIllegal : Prop :=
  ∀ (len : BitVec 24) (s : State), s.active = .render →
    ∃ t, exec (.encode len) s = .next t ∧ Faults s t .illegalCmd (encode (.encode len))

/-! ### The reads (41_read_port.md, 42_delay_lut.md) -/

/-- Rule R141, completion: in range, ready, and with a value in the cell of the generation the command names, RDWORD responds with
that value and has no other effect. -/
def Obligations.RdwordRespondsWithTheCell : Prop :=
  ∀ (gen : BitVec 1) (plane : BitVec 3) (row idx : BitVec 12) (s : State) (w : Word),
    gen.toNat < s.cfg.generations → row.toNat < s.cfg.rowCount → idx.toNat < s.cfg.wordsPerRow → s.ready = true →
    s.bufRead gen ⟨plane.toNat, row.toNat, idx.toNat⟩ = some w →
    ∃ t, exec (.rdword gen plane row idx) s = .next t ∧ Responds s t w

/-- Rule R145, completion: in range, ready, and with a byte in the cell, RDFRAME responds with that byte, zero-extended, and has no
other effect. -/
def Obligations.RdframeRespondsWithThePixel : Prop :=
  ∀ (row col : BitVec 12) (s : State) (v : Byte),
    row.toNat < s.cfg.rowCount → col.toNat < s.cfg.colCount → s.ready = true →
    s.frameRead (row.toNat * s.cfg.colCount + col.toNat) = some v →
    ∃ t, exec (.rdframe row col) s = .next t ∧ Responds s t (v.setWidth 32)

/-- Rules R31 and R144: in every state RDSTATUS responds with READY in bit 0, BUSY in bit 1, CUR_GEN (0 when `G = 1`) in bit 2 and
zeros above, and writes no flag. -/
def Obligations.RdstatusRespondsWithTheFlags : Prop :=
  ∀ s : State, ∃ t w, exec .rdstatus s = .next t ∧ Responds s t w ∧
    w.getLsbD 0 = s.ready ∧ w.getLsbD 1 = s.busy ∧
    (s.cfg.generations = 1 → w.getLsbD 2 = false) ∧ (s.cfg.generations = 2 → w.getLsbD 2 = s.curGen.getLsbD 0) ∧
    ∀ i, 3 ≤ i → w.getLsbD i = false

/-- Rule R164: in every state RDDELAY responds with the table entry of its phase and has no other effect. -/
def Obligations.RddelayRespondsWithTheEntry : Prop :=
  ∀ (phase : BitVec 3) (s : State),
    ∃ t w, s.cfg.delayLut[phase.toNat]? = some w ∧ exec (.rddelay phase) s = .next t ∧ Responds s t w

/-- Rules R182 and R186: E_RANGE is raised exactly when an index field is outside its space, and a faulting read changes nothing else.
That the faulting transaction is taken from its port (in `Faults`) is the model's choice, log entry 6. -/
def Obligations.RangeFaultExactlyOutOfRange : Prop :=
  (∀ (gen : BitVec 1) (plane : BitVec 3) (row idx : BitVec 12) (s : State),
    ∃ t, exec (.rdword gen plane row idx) s = .next t ∧
      (s.cfg.generations ≤ gen.toNat ∨ s.cfg.rowCount ≤ row.toNat ∨ s.cfg.wordsPerRow ≤ idx.toNat ↔
        Faults s t .range (encode (.rdword gen plane row idx)))) ∧
  ∀ (row col : BitVec 12) (s : State),
    ∃ t, exec (.rdframe row col) s = .next t ∧
      (s.cfg.rowCount ≤ row.toNat ∨ s.cfg.colCount ≤ col.toNat ↔ Faults s t .range (encode (.rdframe row col)))

/-- Rules R183 and R187: with the index fields in range, E_NOT_READY is raised exactly when READY is 0 or the cell holds no
value. That the faulting transaction is taken from its port (in `Faults`) is the model's choice, log entry 6. -/
def Obligations.NotReadyFaultExactlyWithoutAValue : Prop :=
  (∀ (gen : BitVec 1) (plane : BitVec 3) (row idx : BitVec 12) (s : State),
    gen.toNat < s.cfg.generations → row.toNat < s.cfg.rowCount → idx.toNat < s.cfg.wordsPerRow →
    ∃ t, exec (.rdword gen plane row idx) s = .next t ∧
      (s.ready = false ∨ s.bufRead gen ⟨plane.toNat, row.toNat, idx.toNat⟩ = none ↔
        Faults s t .notReady (encode (.rdword gen plane row idx)))) ∧
  ∀ (row col : BitVec 12) (s : State), row.toNat < s.cfg.rowCount → col.toNat < s.cfg.colCount →
    ∃ t, exec (.rdframe row col) s = .next t ∧
      (s.ready = false ∨ s.frameRead (row.toNat * s.cfg.colCount + col.toNat) = none ↔
        Faults s t .notReady (encode (.rdframe row col)))

/-! ### Frames and faults (10_state.md R34, 41_read_port.md R147, 60_exceptions.md) -/

/-- Rule R147: RDWORD, RDDELAY, RDSTATUS and RDFRAME respond and leave the block as it is, or record a fault and leave every other
element as it is. That a faulting transaction is taken from its port (in `Faults`) is the model's choice, log entry 6. -/
def Obligations.ReadsHaveNoOtherEffect : Prop :=
  ∀ (i : Instr) (s t : State), (∀ len, i ≠ .encode len) → exec i s = .next t →
    (∃ w, Responds s t w) ∨ ∃ code, Faults s t code (encode i)

/-- Rules R34 and R130, the frame of every command: no command writes a storage cell, READY, CUR_GEN or the configuration; only an
accepted ENCODE writes BUSY and the job; an ENCODE returns no response; the other port's offers stay. -/
def Obligations.CommandsLeaveTheStorageAlone : Prop :=
  ∀ (i : Instr) (s t : State), exec i s = .next t →
    t.cfg = s.cfg ∧ (∀ n, t.frameRead n = s.frameRead n) ∧ (∀ a, Memory.read t.buf a = Memory.read s.buf a) ∧
    t.ready = s.ready ∧ t.curGen = s.curGen ∧ t.active = s.active ∧ t.schedule = s.schedule ∧
    t.tick = s.tick ∧ t.patience = s.patience ∧
    (t.busy = s.busy ∧ t.job = s.job ∨
      s.busy = false ∧ (∃ len, i = .encode len) ∧ s.active = .host ∧ t.fault = s.fault ∧ t.responses = s.responses) ∧
    (t.fault = s.fault ∨ ∃ code, t.fault = some ⟨code, s.active, encode i⟩) ∧
    (∀ p, p ≠ s.active → t.queue p = s.queue p) ∧
    (∀ len, i = .encode len → t.responses = s.responses)

/-- Rules R89, R90 and R181: a word that is no command, offered at the head of a port of an unhalted block, raises E_ILLEGAL_CMD
with that word and port, and has no other effect on the block. That the word is taken from the port (`t.queue p = rest`) is the model's
choice, log entry 6. -/
def Obligations.IllegalWordsFault : Prop :=
  ∀ (s : State) (p : Port) (tr : Transaction) (rest : List Transaction) (moves : List Move) (r : DecodeReject),
    s.cfg.wf = true → s.fault = none → s.schedule = .port p :: moves → s.queue p = tr :: rest →
    decode tr.cmd = .error r →
    ∃ t, step s = .next t ∧ t.fault = some ⟨.illegalCmd, p, tr.cmd⟩ ∧ SameBlock s t ∧
      t.responses = s.responses ∧ t.queue p = rest ∧ t.schedule = moves

/-- Rules R185 and R134: a fault is recorded only in a step of a port, never of the engine, names the port whose step it is and the
word at its head, and has one of the four causes; the clause for E_FRAME_SIZE rests on log entry 10 where the payload is not as long as `LEN`. -/
def Obligations.EveryFaultHasItsCause : Prop :=
  ∀ (s t : State) (r : FaultRecord), step s = .next t → s.fault = none → t.fault = some r →
    Records s t r ∧ ∃ tr rest, s.queue r.port = tr :: rest ∧ r.cmd = tr.cmd ∧
      match r.code with
      | .illegalCmd => (∃ e, decode tr.cmd = .error e) ∨ (r.port = .render ∧ ∃ len, decode tr.cmd = .ok (.encode len))
      | .range =>
          (∃ gen plane row idx, decode tr.cmd = .ok (.rdword gen plane row idx) ∧
            (s.cfg.generations ≤ gen.toNat ∨ s.cfg.rowCount ≤ row.toNat ∨ s.cfg.wordsPerRow ≤ idx.toNat)) ∨
          ∃ row col, decode tr.cmd = .ok (.rdframe row col) ∧ (s.cfg.rowCount ≤ row.toNat ∨ s.cfg.colCount ≤ col.toNat)
      | .notReady =>
          (∃ gen plane row idx, decode tr.cmd = .ok (.rdword gen plane row idx) ∧
            (s.ready = false ∨ s.bufRead gen ⟨plane.toNat, row.toNat, idx.toNat⟩ = none)) ∨
          ∃ row col, decode tr.cmd = .ok (.rdframe row col) ∧
            (s.ready = false ∨ s.frameRead (row.toNat * s.cfg.colCount + col.toNat) = none)
      | .frameSize =>
          r.port = .host ∧ ∃ len, decode tr.cmd = .ok (.encode len) ∧
            (len.toNat ≠ s.cfg.frameBytes ∨ tr.payload.length ≠ s.cfg.frameBytes)

/-- Rule R186, the halted block: no scripted step of a port or of the engine changes anything, and with nothing scripted the run
stops with the recorded fault (that last outcome is the model's choice, log entry 7). -/
def Obligations.HaltedBlockTakesNoStep : Prop :=
  ∀ (s : State) (r : FaultRecord), s.cfg.wf = true → s.fault = some r →
    (∀ p moves, s.schedule = .port p :: moves → step s = .next { s with schedule := moves }) ∧
    (∀ choice moves, s.schedule = .engine choice :: moves → step s = .next { s with schedule := moves }) ∧
    (s.schedule = [] → step s = .fault (.halted r))

/-- Rules R29, R188: once recorded, the fault is kept, record and all, until a reset. -/
def Obligations.FirstFaultIsKeptUntilReset : Prop :=
  ∀ (s t : State) (r : FaultRecord), step s = .next t → s.fault = some r →
    t.fault = some r ∨ (t.fault = none ∧ ∃ moves, s.schedule = .reset :: moves)

/-! ### Reset (70_reset_and_hazards.md) -/

/-- Rules R210 and R211: a reset, in one step and from every state, gives every element its reset value, keeps the configuration,
and releases a held ENCODE unperformed (the queues outside the block: log entries 3 and 9). -/
def Obligations.ResetRestoresTheResetValues : Prop :=
  ∀ (s : State) (moves : List Move), s.cfg.wf = true → s.schedule = .reset :: moves →
    ∃ t, step s = .next t ∧ (∀ n, t.frameRead n = none) ∧ (∀ gen p, t.bufRead gen p = none) ∧
      t.ready = false ∧ t.busy = false ∧ t.curGen = 0#1 ∧ t.job = none ∧ t.fault = none ∧ t.cfg = s.cfg ∧
      (s.hostHeld = true → t.hostQueue = s.hostQueue.tail) ∧ (s.hostHeld = false → t.hostQueue = s.hostQueue) ∧
      t.hostHeld = false ∧ t.schedule = moves

/-- Rule R25: READY is set only by the commit of a job that has written everything, and cleared only by a reset. The second clause is
the spec's own reading of its source's silence (R25's last sentence, decision D40, log entry 18). -/
def Obligations.ReadySetByCommitClearedByReset : Prop :=
  ∀ s t : State, step s = .next t →
    (s.ready = false → t.ready = true →
      ∃ j, s.job = some j ∧ j.framePending = [] ∧ j.wordPending = [] ∧ t.job = none) ∧
    (s.ready = true → t.ready = false → ∃ moves, s.schedule = .reset :: moves)

/-! ### The step (20_memory.md R52) -/

/-- A step runs the decoded command: when a port's step is scripted and the word at its head decodes to `i`, the step is `exec` of
`i` with that port active, and a word stored by `withFetchWord` is the one the next step runs (log entries 4 and 17). -/
def Obligations.StepRunsTheDecodedCommand : Prop :=
  (∀ (s : State) (p : Port) (tr : Transaction) (rest : List Transaction) (moves : List Move) (i : Instr),
    s.cfg.wf = true → s.fault = none → s.schedule = .port p :: moves → s.queue p = tr :: rest → decode tr.cmd = .ok i →
    step s = exec i { s with schedule := moves, active := p }) ∧
  ∀ (s : State) (w : Word) (i : Instr), s.cfg.wf = true → s.fault = none → decode w = .ok i →
    step (s.withFetchWord 32 w.toNat) =
      exec i { s with
        hostQueue := ⟨w, List.replicate i.payloadLength 0#8⟩ :: s.hostQueue
        active := .host }

/-- An unhalted block of a well-formed configuration always has a next state: no step faults and none is refused. That a
faulting command is a next state and that an idle block, which by R52 has no step, answers the same state are the model's form (log
entries 6 and 8). -/
def Obligations.UnhaltedBlockAlwaysSteps : Prop :=
  ∀ s : State, s.cfg.wf = true → s.fault = none → ∃ t, step s = .next t

/-- Rules R22, R33 and R34, the writers of each element: without a reset, a cell of the frame copy changes only in the engine's write of
that cell, a cell of the buffer only in its write of that word, CUR_GEN and READY only in its commit, BUSY only in the commit or in the
step of port `H` that accepts an ENCODE, the job only in one of these four, the fault record only from none, in a step of the port it
names; the responses only grow, and the configuration never changes. -/
def Obligations.ElementsHaveOnlyTheirWriters : Prop :=
  ∀ s t : State, step s = .next t → (∀ moves, s.schedule ≠ .reset :: moves) →
    t.cfg = s.cfg ∧ s.responses <+: t.responses ∧
    (∀ n, t.frameRead n ≠ s.frameRead n → WritesFrameCell s t n) ∧
    (∀ a, Memory.read t.buf a ≠ Memory.read s.buf a → ∃ p, WritesWord s t p a) ∧
    (t.curGen ≠ s.curGen → s.cfg.generations = 2 ∧ Commits s t) ∧
    (t.ready ≠ s.ready → s.ready = false ∧ Commits s t) ∧
    (t.busy ≠ s.busy → Commits s t ∨ Accepts s t) ∧
    (t.job ≠ s.job → (∃ n, WritesFrameCell s t n) ∨ (∃ p a, WritesWord s t p a) ∨ Commits s t ∨ Accepts s t) ∧
    (t.fault ≠ s.fault → ∃ r, Records s t r)

/-- Rules R68, R98 and R130 at the step: a `setFrame` of a whole frame at the head of port `H`, with no job in flight, starts a job
that holds exactly that frame, and the transaction is taken from the port. -/
def Obligations.SetFrameStartsItsJob : Prop :=
  ∀ (s : State) (f : List Byte) (rest : List Transaction) (moves : List Move),
    s.cfg.wf = true → s.fault = none → s.busy = false → f.length = s.cfg.frameBytes →
    s.hostQueue = setFrame f :: rest → s.schedule = .port .host :: moves →
    ∃ t j, step s = .next t ∧ t.job = some j ∧ j.frame = f ∧ t.busy = true ∧ t.fault = none ∧ t.hostQueue = rest ∧
      SameBlock { s with busy := true, job := some j } t

/-! ### The encoder engine (40_encode.md R131 to R136) -/

/-- Rule R131: with frame cells pending, a step of the engine writes one of them with the job's byte and takes it out of the set,
any of them can be the one, and nothing else changes. -/
def Obligations.EngineWritesAnyPendingFrameCell : Prop :=
  ∀ (s : State) (j : Job), s.fault = none → s.job = some j → j.framePending ≠ [] →
    let wrote (n : Nat) (t : State) : Prop :=
      t.frameRead n = some (j.frame.getD n 0#8) ∧ (∀ m, m ≠ n → t.frameRead m = s.frameRead m) ∧
      (∃ j', t.job = some j' ∧ j'.frame = j.frame ∧ j'.tg = j.tg ∧ j'.wordPending = j.wordPending ∧
        ∀ m, m ∈ j'.framePending ↔ m ∈ j.framePending ∧ m ≠ n) ∧
      t = { s with frameCopy := t.frameCopy, job := t.job }
    (∀ choice, ∃ n, n ∈ j.framePending ∧ wrote n (engineStep choice s)) ∧
    ∀ n, n ∈ j.framePending → ∃ choice, wrote n (engineStep choice s)

/-- Rule R132: with no frame cell and some words pending, a step of the engine writes one of them, in the target generation, with
`enc` of the job's frame, and takes it out of the set; any of them can be the one, and nothing else changes. -/
def Obligations.EngineWritesAnyPendingWord : Prop :=
  ∀ (s : State) (j : Job), s.fault = none → s.job = some j → j.framePending = [] → j.wordPending ≠ [] →
    let wrote (p : WordPos) (t : State) : Prop :=
      t.bufRead j.tg p = some (enc s.cfg j.frame p) ∧
      (∀ a, a ≠ bufIndex s.cfg j.tg p → Memory.read t.buf a = Memory.read s.buf a) ∧
      (∃ j', t.job = some j' ∧ j'.frame = j.frame ∧ j'.tg = j.tg ∧ j'.framePending = [] ∧
        ∀ q, q ∈ j'.wordPending ↔ q ∈ j.wordPending ∧ q ≠ p) ∧
      t = { s with buf := t.buf, job := t.job }
    (∀ choice, ∃ p, p ∈ j.wordPending ∧ wrote p (engineStep choice s)) ∧
    ∀ p, p ∈ j.wordPending → ∃ choice, wrote p (engineStep choice s)

/-- Rule R133: with nothing pending, a step of the engine is the commit: CUR_GEN only when `G = 2`, READY 1, BUSY 0, the job gone,
and nothing else changes. -/
def Obligations.CommitPublishesTheJob : Prop :=
  ∀ (s : State) (j : Job) (choice : Nat), s.fault = none → s.job = some j → j.framePending = [] → j.wordPending = [] →
    engineStep choice s =
      { s with
        curGen := if s.cfg.generations = 2 then j.tg else s.curGen
        ready := true
        busy := false
        job := none }

/-- Rules R134 and R135: a job just accepted commits after exactly `FRAME_BYTES + 8 × R × W + 1` steps of the engine, whatever its
choices; it is still in flight before, and afterwards the frame copy holds its frame and the target generation its encoding. -/
def Obligations.JobCommitsAfterItsSteps : Prop :=
  ∀ (s : State) (j : Job) (choices : List Nat),
    s.Inv → s.fault = none → s.job = some j →
    j.framePending.length = s.cfg.frameBytes → j.wordPending.length = 8 * s.cfg.rowCount * s.cfg.wordsPerRow →
    s.schedule = choices.map .engine →
    (choices.length < s.cfg.frameBytes + 8 * s.cfg.rowCount * s.cfg.wordsPerRow + 1 →
      ∃ t, runSteps choices.length s = .next t ∧ t.job.isSome = true ∧ t.busy = true ∧ t.fault = none) ∧
    (choices.length = s.cfg.frameBytes + 8 * s.cfg.rowCount * s.cfg.wordsPerRow + 1 →
      ∃ t, runSteps choices.length s = .next t ∧ t.job = none ∧ t.busy = false ∧ t.ready = true ∧ t.fault = none ∧
        (s.cfg.generations = 2 → t.curGen = j.tg) ∧
        (∀ n, n < s.cfg.frameBytes → t.frameRead n = some (j.frame.getD n 0#8)) ∧
        ∀ p : WordPos, p.inRange s.cfg = true → t.bufRead j.tg p = some (enc s.cfg j.frame p))

/-- Rule R55, and the freedom of rule R54: once the frame copy is written, every set of pending words can be the set written so far,
so with `G = 1` every mix of old and new words is reached. -/
def Obligations.EveryMixOfWordsIsReached : Prop :=
  ∀ (s : State) (j : Job) (chosen : List WordPos), s.Inv → s.fault = none → s.job = some j → j.framePending = [] →
    chosen.Nodup → (∀ p, p ∈ chosen → p ∈ j.wordPending) →
    ∃ choices : List Nat, choices.length = chosen.length ∧
      ∃ t, runSteps chosen.length { s with schedule := choices.map .engine } = .next t ∧ t.ready = s.ready ∧
        ∀ p : WordPos, p.inRange s.cfg = true →
          t.bufRead j.tg p = if p ∈ chosen then some (enc s.cfg j.frame p) else s.bufRead j.tg p

/-- Rules R57 and R136: with two generations no step but a commit or a reset changes a cell of the current generation. -/
def Obligations.CurrentGenerationIsStable : Prop :=
  ∀ s t : State, s.Inv → s.cfg.generations = 2 → step s = .next t → (∀ moves, s.schedule ≠ .reset :: moves) →
    (∀ p : WordPos, p.inRange s.cfg = true → t.bufRead s.curGen p = s.bufRead s.curGen p) ∧
    (t.curGen ≠ s.curGen → s.job.isSome = true ∧ t.job = none)

/-- Rule R53: without a reset a step changes no cell; or it is the engine's write of one pending frame-copy cell of its job, the whole
byte, every other cell as before; or its write of one pending word of its job, the whole word, at the index the engine stores to, every
other cell as before. That a cell is written whole is the spec's decision D10 (log entry 18). -/
def Obligations.OneCellPerStep : Prop :=
  ∀ s t : State, step s = .next t → (∀ moves, s.schedule ≠ .reset :: moves) →
    ((∀ n, t.frameRead n = s.frameRead n) ∧ ∀ a, Memory.read t.buf a = Memory.read s.buf a) ∨
    (∃ n, WritesFrameCell s t n ∧ (∀ m, m ≠ n → t.frameRead m = s.frameRead m) ∧
      ∀ a, Memory.read t.buf a = Memory.read s.buf a) ∨
    (∃ p a, WritesWord s t p a ∧ (∀ n, t.frameRead n = s.frameRead n) ∧
      ∀ a', a' ≠ a → Memory.read t.buf a' = Memory.read s.buf a')

/-- Rule R134, weak fairness: with nothing scripted and a job in flight, some number of steps later the engine has stepped, or a
fault has halted the block, whatever the free values are. The scheduler's form (`patience`) is the model's choice, log entry 5. -/
def Obligations.EngineIsNotStarved : Prop :=
  ∀ (s : State) (j : Job), s.Inv → s.schedule = [] → s.fault = none → s.job = some j →
    ∃ n t, n ≤ s.patience + 1 ∧ runSteps n s = .next t ∧ (t.fault ≠ none ∨ t.job ≠ some j)

/-! ### Invariants -/

/-- The reset state of every well-formed configuration has the invariant and is coherent; `State.reset` is one of them
(its configuration is the model's choice, log entry 2). -/
def Obligations.InvariantHoldsAtReset : Prop :=
  (∀ c : Config, c.wf = true → (State.resetFor c).Inv ∧ (State.resetFor c).Coherent) ∧ State.reset.Inv ∧ State.reset.Coherent

/-- Every step keeps the invariant (rules R26 to R28, R54, R136): canonical storages, BUSY exactly with a job, the target the
inactive generation, frame cells before words, every written cell holding the job's value. -/
def Obligations.StepKeepsTheInvariant : Prop := ∀ s t : State, s.Inv → step s = .next t → t.Inv

/-- Every step keeps coherence (rules R53 to R57, R63, R135, R136): once READY is set, every cell of the frame copy and of the
current generation holds the last committed frame's value, or, where the job in flight has written it, the job's. -/
def Obligations.StepKeepsCoherence : Prop := ∀ s t : State, s.Inv → s.Coherent → step s = .next t → t.Coherent

/-- Rule R135, last write wins, step by step: the committed frame stays what it was, until a job's commit makes it the job's frame;
the first commit makes it the first job's frame. -/
def Obligations.LastCommitWins : Prop :=
  ∀ s t : State, s.Inv → step s = .next t →
    (∀ f, s.ready = true → s.Holds f →
      t.Holds f ∨ (∃ j, s.job = some j ∧ t.job = none ∧ t.Holds j.frame) ∨ t.ready = false) ∧
    (s.ready = false → t.ready = true → ∃ j, s.job = some j ∧ t.job = none ∧ t.Holds j.frame)

/-- Rules R142, R143 and R55: with READY set, an RDWORD in range of the current generation responds, and what it returns is the last
committed frame's word or, only where the job in flight writes that generation and has written the word, the job's. -/
def Obligations.ReadsSeeOldOrNewWords : Prop :=
  ∀ (s : State) (f : List Byte) (plane : BitVec 3) (row idx : BitVec 12), s.Inv → s.ready = true → s.Holds f →
    row.toNat < s.cfg.rowCount → idx.toNat < s.cfg.wordsPerRow →
    ∃ t w, exec (.rdword s.curGen plane row idx) s = .next t ∧ Responds s t w ∧
      (w = enc s.cfg f ⟨plane.toNat, row.toNat, idx.toNat⟩ ∨
        ∃ j, s.job = some j ∧ j.tg = s.curGen ∧ ⟨plane.toNat, row.toNat, idx.toNat⟩ ∉ j.wordPending ∧
          w = enc s.cfg j.frame ⟨plane.toNat, row.toNat, idx.toNat⟩) ∧
      (s.cfg.generations = 2 ∨ s.job = none → w = enc s.cfg f ⟨plane.toNat, row.toNat, idx.toNat⟩)

/-- Rule R145's corner case: with READY set, an RDFRAME in range always responds, with the last committed frame's byte or, only
where the job in flight has written the cell, the job's (rule R146). -/
def Obligations.FrameReadsAfterReadyRespond : Prop :=
  ∀ (s : State) (f : List Byte) (row col : BitVec 12), s.Inv → s.ready = true → s.Holds f →
    row.toNat < s.cfg.rowCount → col.toNat < s.cfg.colCount →
    ∃ t v, exec (.rdframe row col) s = .next t ∧ Responds s t (BitVec.setWidth 32 v) ∧
      (v = f.getD (row.toNat * s.cfg.colCount + col.toNat) 0#8 ∨
        ∃ j, s.job = some j ∧ row.toNat * s.cfg.colCount + col.toNat ∉ j.framePending ∧
          v = j.frame.getD (row.toNat * s.cfg.colCount + col.toNat) 0#8)

/-- Rule R63 (a), (b): an RDSTATUS that returns READY 1 and BUSY 0 comes after a commit with no job since: from then every cell of the
frame copy and of the current generation holds the value of one frame. -/
def Obligations.IdleReadyStatusMeansOneWholeFrame : Prop :=
  ∀ (s t : State) (w : Word), s.Inv → s.Coherent → exec .rdstatus s = .next t → Responds s t w →
    w.getLsbD 0 = true → w.getLsbD 1 = false →
    ∃ f, f.length = t.cfg.frameBytes ∧ (∀ n, n < t.cfg.frameBytes → t.frameRead n = some (f.getD n 0#8)) ∧
      ∀ p : WordPos, p.inRange t.cfg = true → t.bufRead t.curGen p = some (enc t.cfg f p)

/-! ### The render consumer (20_memory.md R66, R70; 42_delay_lut.md R165) -/

/-- Rules R66 and R165: a pass of a ready block is, row by row in ascending order, the row's words `k = 0 .. CM` in order, each read
once from the row's generation in the phase's plane, and then the phase's delay entry, once; nothing else; and the next phase is one
more modulo 8. A pass of a block that is not ready is empty and keeps its phase. The pass is the model's rendering of the
environment's protocol (log entry 21). -/
def Obligations.RenderPassReadsTheDelayOncePerRow : Prop :=
  ∀ (c : Config) (status : Word) (gen : Nat → BitVec 1) (phase : BitVec 3), c.wf = true →
    (status.getLsbD 0 = true →
      (renderPass c status gen phase).length = c.rowCount * (c.wordsPerRow + 1) ∧
      (∀ y, y < c.rowCount →
        (∀ k, k < c.wordsPerRow → ∃ row idx : BitVec 12, row.toNat = y ∧ idx.toNat = k ∧
          (renderPass c status gen phase)[y * (c.wordsPerRow + 1) + k]? = some (.rdword (gen y) phase row idx)) ∧
        (renderPass c status gen phase)[y * (c.wordsPerRow + 1) + c.wordsPerRow]? = some (.rddelay phase)) ∧
      (renderPass c status gen phase).count (.rddelay phase) = c.rowCount ∧
      (∀ q, .rddelay q ∈ renderPass c status gen phase → q = phase) ∧
      (nextPhase status phase).toNat = (phase.toNat + 1) % 8) ∧
    (status.getLsbD 0 = false → renderPass c status gen phase = [] ∧ nextPhase status phase = phase)

/-- Rules R66, R70 and R215: with READY set, every command of a render pass over the current generation responds. -/
def Obligations.EveryCommandOfARenderPassResponds : Prop :=
  ∀ (s : State) (status : Word) (phase : BitVec 3) (i : Instr), s.Inv → s.Coherent → s.ready = true →
    i ∈ renderPass s.cfg status (fun _ => s.curGen) phase →
    ∃ t w, exec i s = .next t ∧ Responds s t w

/-! ### Pseudo-commands (30_encoding.md R93) -/

/-- Rule R93: RDROW is RDWORD of the words `k = 0 .. CM` of its row group in order, RDCTRL that of word `CM`, RDPIX that of its group,
which must be below `CM`; each command is offered, one at a time, on the pseudo-command's own port, after what is offered there, and
nothing else changes. The offer is the model's form of the environment's side (log entries 3 and 21). -/
def Obligations.PseudoCommandsExpandInOrder : Prop :=
  (∀ (c : Config) (gen : BitVec 1) (plane : BitVec 3) (row : BitVec 12) (answers : List Word), c.wf = true →
    (answers.length ≤ c.colModules → ∃ idx : BitVec 12, idx.toNat = answers.length ∧
      (Pseudo.rdrow gen plane row).next c answers = some (.rdword gen plane row idx)) ∧
    (c.colModules < answers.length → (Pseudo.rdrow gen plane row).next c answers = none) ∧
    (answers = [] → ∃ idx : BitVec 12, idx.toNat = c.colModules ∧
      (Pseudo.rdctrl gen plane row).next c answers = some (.rdword gen plane row idx)) ∧
    (answers ≠ [] → (Pseudo.rdctrl gen plane row).next c answers = none) ∧
    ∀ grp : BitVec 12,
      (answers = [] ∧ grp.toNat < c.colModules →
        (Pseudo.rdpix gen plane row grp).next c answers = some (.rdword gen plane row grp)) ∧
      (answers ≠ [] ∨ c.colModules ≤ grp.toNat → (Pseudo.rdpix gen plane row grp).next c answers = none)) ∧
  ∀ (q : Pseudo) (p : Port) (start : Nat) (s t : State), q.offerNext p start s = some t →
    ∃ i, q.next s.cfg (s.answersOn p start) = some i ∧ t.queue p = s.queue p ++ [offer i] ∧
      (∀ p', p' ≠ p → t.queue p' = s.queue p') ∧ t = { s with hostQueue := t.hostQueue, renderQueue := t.renderQueue }

/-- Rule R93, WAITIDLE: while every response so far had `BUSY = 1` it offers one more RDSTATUS on its port; when that port steps, the
response's BUSY is the block's, and the pseudo-command is over exactly when it is 0. The offer and the scripted step are the model's form
of the environment's side (log entries 3, 4 and 21). -/
def Obligations.WaitidlePollsUntilIdle : Prop :=
  ∀ (s : State) (p : Port) (start : Nat) (moves : List Move), s.cfg.wf = true → s.fault = none → s.queue p = [] →
    start ≤ s.responses.length → (∀ w, w ∈ s.answersOn p start → w.getLsbD 1 = true) →
    ∃ s' t w, Pseudo.waitidle.offerNext p start s = some s' ∧ s'.queue p = [offer .rdstatus] ∧
      step { s' with schedule := .port p :: moves } = .next t ∧ t.fault = none ∧ t.queue p = [] ∧
      t.answersOn p start = s.answersOn p start ++ [w] ∧ w.getLsbD 1 = s.busy ∧
      (s.busy = true → Pseudo.waitidle.next t.cfg (t.answersOn p start) = some .rdstatus) ∧
      (s.busy = false → Pseudo.waitidle.next t.cfg (t.answersOn p start) = none)
end

