-- ==== Sys2Proof/Laws/Memory.lean ====
section
/-! SUPPORT. The laws of one storage space: a read after a write, and that a write inside the space keeps the canonical form. -/

namespace Sys2Proof.Machine

variable {α : Type}

@[simp] theorem Memory.read_nil (i : Nat) : Memory.read ([] : Memory α) i = none := rfl

/-- A read of the written cell gives the value written. -/
@[simp] theorem Memory.read_write_same (m : Memory α) (i : Nat) (v : α) : Memory.read (Memory.write m i v) i = some v := by
  induction m with
  | nil => simp [Memory.write, Memory.read]
  | cons e rest ih =>
    obtain ⟨j, w⟩ := e
    by_cases h : i < j
    · simp [Memory.write, Memory.read, h]
    · by_cases h' : i = j
      · simp [Memory.write, Memory.read, h']
      · simp [Memory.write, Memory.read, h, h', ih]

/-- A read of any other cell gives what it gave before. -/
theorem Memory.read_write_other (m : Memory α) {i k : Nat} (v : α) (hk : k ≠ i) :
    Memory.read (Memory.write m i v) k = Memory.read m k := by
  induction m with
  | nil => simp [Memory.write, Memory.read, hk]
  | cons e rest ih =>
    obtain ⟨j, w⟩ := e
    by_cases h : i < j
    · simp [Memory.write, Memory.read, h, hk]
    · by_cases h' : i = j
      · subst h'; simp [Memory.write, Memory.read, hk]
      · by_cases hkj : k = j
        · simp [Memory.write, Memory.read, h, h', hkj]
        · simp [Memory.write, Memory.read, h, h', hkj, ih]

/-- One statement for both: a read after a write. -/
theorem Memory.read_write (m : Memory α) (i k : Nat) (v : α) :
    Memory.read (Memory.write m i v) k = if k = i then some v else Memory.read m k := by
  by_cases h : k = i
  · subst h; simp
  · simp [h, Memory.read_write_other m v h]

theorem Memory.wfFrom_write (m : Memory α) {lo size i : Nat} (v : α) (hlo : lo ≤ i) (hi : i < size)
    (h : Memory.wfFrom lo size m = true) : Memory.wfFrom lo size (Memory.write m i v) = true := by
  induction m generalizing lo with
  | nil => simp [Memory.write, Memory.wfFrom, hlo, hi]
  | cons e rest ih =>
    obtain ⟨j, w⟩ := e
    simp only [Memory.wfFrom, Bool.and_eq_true, decide_eq_true_eq] at h
    obtain ⟨⟨hj, hs⟩, hr⟩ := h
    by_cases hij : i < j
    · simp [Memory.write, Memory.wfFrom, hij, hlo, hi, hs, hr]
    · by_cases he : i = j
      · subst he; simp [Memory.write, Memory.wfFrom, hlo, hi, hr]
      · have := ih (lo := j + 1) (by omega) hr
        simp [Memory.write, Memory.wfFrom, hij, he, hj, hs, this]

/-- A write inside the space keeps the canonical form. -/
theorem Memory.wf_write (m : Memory α) {size i : Nat} (v : α) (hi : i < size) (h : Memory.wf size m = true) :
    Memory.wf size (Memory.write m i v) = true :=
  Memory.wfFrom_write m v (Nat.zero_le i) hi h

/-- The empty space, the reset value of both storages, has the canonical form. -/
@[simp] theorem Memory.wf_nil (size : Nat) : Memory.wf size ([] : Memory α) = true := rfl

/-- Below the first index of a canonical space nothing is listed. -/
theorem Memory.read_lt_wfFrom (m : Memory α) {lo size i : Nat} (h : Memory.wfFrom lo size m = true) (hi : i < lo) :
    Memory.read m i = none := by
  induction m generalizing lo with
  | nil => rfl
  | cons e rest ih =>
    obtain ⟨j, w⟩ := e
    simp only [Memory.wfFrom, Bool.and_eq_true, decide_eq_true_eq] at h
    obtain ⟨⟨hj, _⟩, hr⟩ := h
    have hne : i ≠ j := by omega
    simp [Memory.read, hne, ih hr (by omega)]

theorem Memory.ext_wfFrom (m m' : Memory α) {lo size : Nat} (h : Memory.wfFrom lo size m = true)
    (h' : Memory.wfFrom lo size m' = true) (hr : ∀ i, Memory.read m i = Memory.read m' i) : m = m' := by
  induction m generalizing lo m' with
  | nil =>
    cases m' with
    | nil => rfl
    | cons e rest => have := hr e.1; simp [Memory.read] at this
  | cons e rest ih =>
    obtain ⟨j, w⟩ := e
    cases m' with
    | nil => have := hr j; simp [Memory.read] at this
    | cons e' rest' =>
      obtain ⟨j', w'⟩ := e'
      simp only [Memory.wfFrom, Bool.and_eq_true, decide_eq_true_eq] at h h'
      obtain ⟨_, hrest⟩ := h
      obtain ⟨_, hrest'⟩ := h'
      have hjj : j = j' := by
        rcases Nat.lt_trichotomy j j' with hlt | heq | hgt
        · have := hr j
          simp [Memory.read, Nat.ne_of_lt hlt, Memory.read_lt_wfFrom rest' hrest' (show j < j' + 1 by omega)] at this
        · exact heq
        · have := hr j'
          simp [Memory.read, Nat.ne_of_lt hgt, Memory.read_lt_wfFrom rest hrest (show j' < j + 1 by omega)] at this
      subst hjj
      have hw : w = w' := by have := hr j; simpa [Memory.read] using this
      subst hw
      congr 1
      refine ih rest' hrest hrest' fun i => ?_
      by_cases hij : i = j
      · subst hij
        rw [Memory.read_lt_wfFrom rest hrest (by omega), Memory.read_lt_wfFrom rest' hrest' (by omega)]
      · have := hr i
        simpa [Memory.read, hij] using this

/-- Equal readings are equal data: the canonical form is canonical. -/
theorem Memory.ext_of_read (m m' : Memory α) {size : Nat} (h : Memory.wf size m = true) (h' : Memory.wf size m' = true)
    (hr : ∀ i, Memory.read m i = Memory.read m' i) : m = m' :=
  Memory.ext_wfFrom m m' h h' hr

end Sys2Proof.Machine
end

