-- ==== Sys2Proof/Laws/Operands.lean ====
section
/-! SUPPORT. The index spaces: every position of a generation is enumerated once, the linear index of the buffer is inside the
space and names one cell only, and the frame index is inside the frame copy. -/

namespace Sys2Proof.Machine

@[simp] theorem colorBits_eq : colorBits = 8 := rfl

@[simp] theorem moduleSize_eq : moduleSize = 20 := rfl

theorem WordPos.inRange_iff (c : Config) (p : WordPos) :
    p.inRange c = true ↔ p.plane < 8 ∧ p.row < c.rowCount ∧ p.idx < c.wordsPerRow := by
  simp only [WordPos.inRange, Bool.and_eq_true, decide_eq_true_eq, and_assoc]
  rfl

/-- The enumeration holds exactly the positions in range. -/
theorem mem_allWordPos (c : Config) (p : WordPos) : p ∈ allWordPos c ↔ p.inRange c = true := by
  obtain ⟨b, y, k⟩ := p
  simp only [allWordPos, List.mem_flatMap, List.mem_map, List.mem_range, WordPos.mk.injEq, WordPos.inRange_iff, colorBits_eq]
  constructor
  · rintro ⟨b', hb, y', hy, k', hk, rfl, rfl, rfl⟩
    exact ⟨hb, hy, hk⟩
  · rintro ⟨hb, hy, hk⟩
    exact ⟨b, hb, y, hy, k, hk, rfl, rfl, rfl⟩

/-- The enumeration names no position twice. -/
theorem nodup_allWordPos (c : Config) : (allWordPos c).Nodup := by
  unfold allWordPos
  refine List.nodup_flatMap.2 ⟨fun b _ => List.nodup_flatMap.2 ⟨fun y _ => ?_, ?_⟩, ?_⟩
  · exact (List.nodup_range).map fun k k' h => by simpa using h
  · refine List.nodup_range.imp fun {y y'} hne => ?_
    simp only [Function.onFun, List.disjoint_left, List.mem_map, not_exists, not_and]
    rintro p ⟨k, _, rfl⟩ k' _ h
    simp at h
    exact hne h.1.symm
  · refine List.nodup_range.imp fun {b b'} hne => ?_
    simp only [Function.onFun, List.disjoint_left, List.mem_flatMap, List.mem_map, not_exists, not_and]
    rintro p ⟨y, _, k, _, rfl⟩ y' _ k' _ h
    simp at h
    exact hne h.1.symm

theorem length_allWordPos (c : Config) : (allWordPos c).length = c.generationWords := by
  simp [allWordPos, List.length_flatMap, Config.generationWords, Nat.mul_assoc]
  omega

/-- Two numbers split by the same base are equal only part by part. -/
theorem digits_unique {a a' d d' base : Nat} (hd : d < base) (hd' : d' < base) (h : a * base + d = a' * base + d') :
    a = a' ∧ d = d' := by
  have hq : (a * base + d) / base = a := by
    rw [Nat.mul_comm, Nat.mul_add_div (by omega), Nat.div_eq_of_lt hd, Nat.add_zero]
  have hq' : (a' * base + d') / base = a' := by
    rw [Nat.mul_comm, Nat.mul_add_div (by omega), Nat.div_eq_of_lt hd', Nat.add_zero]
  have ha : a = a' := by rw [← hq, ← hq', h]
  subst ha
  exact ⟨rfl, by omega⟩

/-- One digit more stays below one base more. -/
theorem digits_lt {a n d base : Nat} (ha : a < n) (hd : d < base) : a * base + d < n * base := by
  have h : (a + 1) * base ≤ n * base := Nat.mul_le_mul_right base ha
  rw [Nat.add_mul, Nat.one_mul] at h
  omega

/-- The linear index names one generation and one position only. -/
theorem bufIndex_inj (c : Config) {g g' : BitVec 1} {p p' : WordPos} (hp : p.inRange c = true) (hp' : p'.inRange c = true)
    (h : bufIndex c g p = bufIndex c g' p') : g = g' ∧ p = p' := by
  rw [WordPos.inRange_iff] at hp hp'
  obtain ⟨b, y, k⟩ := p
  obtain ⟨b', y', k'⟩ := p'
  obtain ⟨hb, hy, hk⟩ := hp
  obtain ⟨hb', hy', hk'⟩ := hp'
  simp only [bufIndex, colorBits_eq] at h
  dsimp only at hb hy hk hb' hy' hk' h
  obtain ⟨h₁, rfl⟩ := digits_unique hk hk' h
  obtain ⟨h₂, rfl⟩ := digits_unique hy hy' h₁
  obtain ⟨h₃, rfl⟩ := digits_unique hb hb' h₂
  exact ⟨BitVec.eq_of_toNat_eq h₃, rfl⟩

/-- The linear index of a generation that exists is inside the buffer. -/
theorem bufIndex_lt (c : Config) {g : BitVec 1} {p : WordPos} (hg : g.toNat < c.generations) (hp : p.inRange c = true) :
    bufIndex c g p < c.bufWords := by
  rw [WordPos.inRange_iff] at hp
  have h := digits_lt (digits_lt (digits_lt hg hp.1) hp.2.1) hp.2.2
  simpa [bufIndex, Config.bufWords, Config.generationWords, Nat.mul_assoc] using h

/-- The frame index of a row and column in range is inside the frame copy, and names that row and column only. -/
theorem frameIndex_lt (c : Config) {row col : Nat} (hr : row < c.rowCount) (hc : col < c.colCount) :
    frameIndex c row col < c.frameBytes :=
  digits_lt hr hc

theorem frameIndex_inj (c : Config) {row row' col col' : Nat} (hc : col < c.colCount) (hc' : col' < c.colCount)
    (h : frameIndex c row col = frameIndex c row' col') : row = row' ∧ col = col' :=
  digits_unique hc hc' h

/-- A 1-bit value is 0 or 1. -/
theorem bit_cases (g : BitVec 1) : g = 0#1 ∨ g = 1#1 := by
  revert g; decide

/-- What a well-formed configuration says, one clause a field. -/
theorem config_wf_iff (c : Config) :
    c.wf = true ↔
      (1 ≤ c.rowModules ∧ c.rowModules ≤ 204) ∧ (1 ≤ c.colModules ∧ c.colModules ≤ 204) ∧
        (c.generations = 1 ∨ c.generations = 2) ∧ delayTableOk c.delayLut = true := by
  simp [Config.wf, and_assoc]

/-- The target generation of a well-formed configuration exists. -/
theorem targetGen_lt {c : Config} (hc : c.wf = true) (g : BitVec 1) : (targetGen c g).toNat < c.generations := by
  obtain ⟨-, -, hg, -⟩ := (config_wf_iff c).1 hc
  rcases hg with h | h
  · simp [targetGen, h]
  · simp only [targetGen, h, if_true]; exact (1#1 - g).isLt

/-- With two generations the target is not the current one. -/
theorem targetGen_ne {c : Config} (h : c.generations = 2) (g : BitVec 1) : targetGen c g ≠ g := by
  simp only [targetGen, h, if_true]; revert g; decide

/-- With one generation the target is generation 0. -/
theorem targetGen_one {c : Config} (h : c.generations = 1) (g : BitVec 1) : targetGen c g = 0#1 := by
  simp [targetGen, h]

end Sys2Proof.Machine
end

