-- ==== Sys2Proof/Laws/State.lean ====
section
/-! SUPPORT. One lemma per field per named update of the state, each true by unfolding once, so that no proof unfolds a record
update again. -/

namespace Sys2Proof.Machine

section
variable (s : State) (i : Nat) (v : Byte)

@[simp] theorem State.frameWrite_cfg : (s.frameWrite i v).cfg = s.cfg := rfl
@[simp] theorem State.frameWrite_frameCopy : (s.frameWrite i v).frameCopy = Memory.write s.frameCopy i v := rfl
@[simp] theorem State.frameWrite_buf : (s.frameWrite i v).buf = s.buf := rfl
@[simp] theorem State.frameWrite_ready : (s.frameWrite i v).ready = s.ready := rfl
@[simp] theorem State.frameWrite_busy : (s.frameWrite i v).busy = s.busy := rfl
@[simp] theorem State.frameWrite_curGen : (s.frameWrite i v).curGen = s.curGen := rfl
@[simp] theorem State.frameWrite_job : (s.frameWrite i v).job = s.job := rfl
@[simp] theorem State.frameWrite_fault : (s.frameWrite i v).fault = s.fault := rfl
@[simp] theorem State.frameWrite_hostQueue : (s.frameWrite i v).hostQueue = s.hostQueue := rfl
@[simp] theorem State.frameWrite_renderQueue : (s.frameWrite i v).renderQueue = s.renderQueue := rfl
@[simp] theorem State.frameWrite_active : (s.frameWrite i v).active = s.active := rfl
@[simp] theorem State.frameWrite_responses : (s.frameWrite i v).responses = s.responses := rfl
@[simp] theorem State.frameWrite_schedule : (s.frameWrite i v).schedule = s.schedule := rfl
@[simp] theorem State.frameWrite_tick : (s.frameWrite i v).tick = s.tick := rfl
@[simp] theorem State.frameWrite_patience : (s.frameWrite i v).patience = s.patience := rfl

end

section
variable (s : State) (g : BitVec 1) (p : WordPos) (v : Word)

@[simp] theorem State.bufWrite_cfg : (s.bufWrite g p v).cfg = s.cfg := rfl
@[simp] theorem State.bufWrite_frameCopy : (s.bufWrite g p v).frameCopy = s.frameCopy := rfl
@[simp] theorem State.bufWrite_buf : (s.bufWrite g p v).buf = Memory.write s.buf (bufIndex s.cfg g p) v := rfl
@[simp] theorem State.bufWrite_ready : (s.bufWrite g p v).ready = s.ready := rfl
@[simp] theorem State.bufWrite_busy : (s.bufWrite g p v).busy = s.busy := rfl
@[simp] theorem State.bufWrite_curGen : (s.bufWrite g p v).curGen = s.curGen := rfl
@[simp] theorem State.bufWrite_job : (s.bufWrite g p v).job = s.job := rfl
@[simp] theorem State.bufWrite_fault : (s.bufWrite g p v).fault = s.fault := rfl
@[simp] theorem State.bufWrite_hostQueue : (s.bufWrite g p v).hostQueue = s.hostQueue := rfl
@[simp] theorem State.bufWrite_renderQueue : (s.bufWrite g p v).renderQueue = s.renderQueue := rfl
@[simp] theorem State.bufWrite_active : (s.bufWrite g p v).active = s.active := rfl
@[simp] theorem State.bufWrite_responses : (s.bufWrite g p v).responses = s.responses := rfl
@[simp] theorem State.bufWrite_schedule : (s.bufWrite g p v).schedule = s.schedule := rfl
@[simp] theorem State.bufWrite_tick : (s.bufWrite g p v).tick = s.tick := rfl
@[simp] theorem State.bufWrite_patience : (s.bufWrite g p v).patience = s.patience := rfl

end

section
variable (s : State)

@[simp] theorem State.retire_cfg : (s.retire).cfg = s.cfg := rfl
@[simp] theorem State.retire_frameCopy : (s.retire).frameCopy = s.frameCopy := rfl
@[simp] theorem State.retire_buf : (s.retire).buf = s.buf := rfl
@[simp] theorem State.retire_ready : (s.retire).ready = s.ready := rfl
@[simp] theorem State.retire_busy : (s.retire).busy = s.busy := rfl
@[simp] theorem State.retire_curGen : (s.retire).curGen = s.curGen := rfl
@[simp] theorem State.retire_job : (s.retire).job = s.job := rfl
@[simp] theorem State.retire_fault : (s.retire).fault = s.fault := rfl
@[simp] theorem State.retire_hostQueue : (s.retire).hostQueue = if s.active = .host then s.hostQueue.tail else s.hostQueue := rfl
@[simp] theorem State.retire_renderQueue : (s.retire).renderQueue = if s.active = .render then s.renderQueue.tail else s.renderQueue := rfl
@[simp] theorem State.retire_active : (s.retire).active = s.active := rfl
@[simp] theorem State.retire_responses : (s.retire).responses = s.responses := rfl
@[simp] theorem State.retire_schedule : (s.retire).schedule = s.schedule := rfl
@[simp] theorem State.retire_tick : (s.retire).tick = s.tick := rfl
@[simp] theorem State.retire_patience : (s.retire).patience = s.patience := rfl

end

section
variable (s : State) (v : Word)

@[simp] theorem State.respond_cfg : (s.respond v).cfg = s.cfg := rfl
@[simp] theorem State.respond_frameCopy : (s.respond v).frameCopy = s.frameCopy := rfl
@[simp] theorem State.respond_buf : (s.respond v).buf = s.buf := rfl
@[simp] theorem State.respond_ready : (s.respond v).ready = s.ready := rfl
@[simp] theorem State.respond_busy : (s.respond v).busy = s.busy := rfl
@[simp] theorem State.respond_curGen : (s.respond v).curGen = s.curGen := rfl
@[simp] theorem State.respond_job : (s.respond v).job = s.job := rfl
@[simp] theorem State.respond_fault : (s.respond v).fault = s.fault := rfl
@[simp] theorem State.respond_hostQueue : (s.respond v).hostQueue = if s.active = .host then s.hostQueue.tail else s.hostQueue := rfl
@[simp] theorem State.respond_renderQueue : (s.respond v).renderQueue = if s.active = .render then s.renderQueue.tail else s.renderQueue := rfl
@[simp] theorem State.respond_active : (s.respond v).active = s.active := rfl
@[simp] theorem State.respond_responses : (s.respond v).responses = s.responses ++ [⟨s.active, v⟩] := rfl
@[simp] theorem State.respond_schedule : (s.respond v).schedule = s.schedule := rfl
@[simp] theorem State.respond_tick : (s.respond v).tick = s.tick := rfl
@[simp] theorem State.respond_patience : (s.respond v).patience = s.patience := rfl

end

section
variable (s : State) (code : FaultCode) (cmd : Word)

@[simp] theorem State.raise_cfg : (s.raise code cmd).cfg = s.cfg := rfl
@[simp] theorem State.raise_frameCopy : (s.raise code cmd).frameCopy = s.frameCopy := rfl
@[simp] theorem State.raise_buf : (s.raise code cmd).buf = s.buf := rfl
@[simp] theorem State.raise_ready : (s.raise code cmd).ready = s.ready := rfl
@[simp] theorem State.raise_busy : (s.raise code cmd).busy = s.busy := rfl
@[simp] theorem State.raise_curGen : (s.raise code cmd).curGen = s.curGen := rfl
@[simp] theorem State.raise_job : (s.raise code cmd).job = s.job := rfl
@[simp] theorem State.raise_fault : (s.raise code cmd).fault = some ⟨code, s.active, cmd⟩ := rfl
@[simp] theorem State.raise_hostQueue : (s.raise code cmd).hostQueue = if s.active = .host then s.hostQueue.tail else s.hostQueue := rfl
@[simp] theorem State.raise_renderQueue : (s.raise code cmd).renderQueue = if s.active = .render then s.renderQueue.tail else s.renderQueue := rfl
@[simp] theorem State.raise_active : (s.raise code cmd).active = s.active := rfl
@[simp] theorem State.raise_responses : (s.raise code cmd).responses = s.responses := rfl
@[simp] theorem State.raise_schedule : (s.raise code cmd).schedule = s.schedule := rfl
@[simp] theorem State.raise_tick : (s.raise code cmd).tick = s.tick := rfl
@[simp] theorem State.raise_patience : (s.raise code cmd).patience = s.patience := rfl

end

section
variable (s : State) (frame : List Byte)

@[simp] theorem State.startJob_cfg : (s.startJob frame).cfg = s.cfg := rfl
@[simp] theorem State.startJob_frameCopy : (s.startJob frame).frameCopy = s.frameCopy := rfl
@[simp] theorem State.startJob_buf : (s.startJob frame).buf = s.buf := rfl
@[simp] theorem State.startJob_ready : (s.startJob frame).ready = s.ready := rfl
@[simp] theorem State.startJob_busy : (s.startJob frame).busy = true := rfl
@[simp] theorem State.startJob_curGen : (s.startJob frame).curGen = s.curGen := rfl
@[simp] theorem State.startJob_job : (s.startJob frame).job = some ⟨frame, targetGen s.cfg s.curGen, List.range s.cfg.frameBytes, allWordPos s.cfg⟩ := rfl
@[simp] theorem State.startJob_fault : (s.startJob frame).fault = s.fault := rfl
@[simp] theorem State.startJob_hostQueue : (s.startJob frame).hostQueue = s.hostQueue := rfl
@[simp] theorem State.startJob_renderQueue : (s.startJob frame).renderQueue = s.renderQueue := rfl
@[simp] theorem State.startJob_active : (s.startJob frame).active = s.active := rfl
@[simp] theorem State.startJob_responses : (s.startJob frame).responses = s.responses := rfl
@[simp] theorem State.startJob_schedule : (s.startJob frame).schedule = s.schedule := rfl
@[simp] theorem State.startJob_tick : (s.startJob frame).tick = s.tick := rfl
@[simp] theorem State.startJob_patience : (s.startJob frame).patience = s.patience := rfl

end

section
variable (s : State) (tg : BitVec 1)

@[simp] theorem State.commit_cfg : (s.commit tg).cfg = s.cfg := rfl
@[simp] theorem State.commit_frameCopy : (s.commit tg).frameCopy = s.frameCopy := rfl
@[simp] theorem State.commit_buf : (s.commit tg).buf = s.buf := rfl
@[simp] theorem State.commit_ready : (s.commit tg).ready = true := rfl
@[simp] theorem State.commit_busy : (s.commit tg).busy = false := rfl
@[simp] theorem State.commit_curGen : (s.commit tg).curGen = if s.cfg.generations = 2 then tg else s.curGen := rfl
@[simp] theorem State.commit_job : (s.commit tg).job = none := rfl
@[simp] theorem State.commit_fault : (s.commit tg).fault = s.fault := rfl
@[simp] theorem State.commit_hostQueue : (s.commit tg).hostQueue = s.hostQueue := rfl
@[simp] theorem State.commit_renderQueue : (s.commit tg).renderQueue = s.renderQueue := rfl
@[simp] theorem State.commit_active : (s.commit tg).active = s.active := rfl
@[simp] theorem State.commit_responses : (s.commit tg).responses = s.responses := rfl
@[simp] theorem State.commit_schedule : (s.commit tg).schedule = s.schedule := rfl
@[simp] theorem State.commit_tick : (s.commit tg).tick = s.tick := rfl
@[simp] theorem State.commit_patience : (s.commit tg).patience = s.patience := rfl

end

section
variable (s : State) (a : Agent)

@[simp] theorem State.advance_cfg : (s.advance a).cfg = s.cfg := rfl
@[simp] theorem State.advance_frameCopy : (s.advance a).frameCopy = s.frameCopy := rfl
@[simp] theorem State.advance_buf : (s.advance a).buf = s.buf := rfl
@[simp] theorem State.advance_ready : (s.advance a).ready = s.ready := rfl
@[simp] theorem State.advance_busy : (s.advance a).busy = s.busy := rfl
@[simp] theorem State.advance_curGen : (s.advance a).curGen = s.curGen := rfl
@[simp] theorem State.advance_job : (s.advance a).job = s.job := rfl
@[simp] theorem State.advance_fault : (s.advance a).fault = s.fault := rfl
@[simp] theorem State.advance_hostQueue : (s.advance a).hostQueue = s.hostQueue := rfl
@[simp] theorem State.advance_renderQueue : (s.advance a).renderQueue = s.renderQueue := rfl
@[simp] theorem State.advance_active : (s.advance a).active = s.active := rfl
@[simp] theorem State.advance_responses : (s.advance a).responses = s.responses := rfl
@[simp] theorem State.advance_schedule : (s.advance a).schedule = s.schedule := rfl
@[simp] theorem State.advance_tick : (s.advance a).tick = s.tick + 1 := rfl
@[simp] theorem State.advance_patience : (s.advance a).patience = if a = .engine ∨ s.job.isNone then Config.freePatience s.tick else s.patience - 1 := rfl

end

section
variable (s : State)

@[simp] theorem State.applyReset_cfg : (s.applyReset).cfg = s.cfg := rfl
@[simp] theorem State.applyReset_frameCopy : (s.applyReset).frameCopy = [] := rfl
@[simp] theorem State.applyReset_buf : (s.applyReset).buf = [] := rfl
@[simp] theorem State.applyReset_ready : (s.applyReset).ready = false := rfl
@[simp] theorem State.applyReset_busy : (s.applyReset).busy = false := rfl
@[simp] theorem State.applyReset_curGen : (s.applyReset).curGen = 0#1 := rfl
@[simp] theorem State.applyReset_job : (s.applyReset).job = none := rfl
@[simp] theorem State.applyReset_fault : (s.applyReset).fault = none := rfl
@[simp] theorem State.applyReset_hostQueue : (s.applyReset).hostQueue = if s.hostHeld then s.hostQueue.tail else s.hostQueue := rfl
@[simp] theorem State.applyReset_renderQueue : (s.applyReset).renderQueue = s.renderQueue := rfl
@[simp] theorem State.applyReset_active : (s.applyReset).active = s.active := rfl
@[simp] theorem State.applyReset_responses : (s.applyReset).responses = s.responses := rfl
@[simp] theorem State.applyReset_schedule : (s.applyReset).schedule = s.schedule := rfl
@[simp] theorem State.applyReset_tick : (s.applyReset).tick = s.tick := rfl
@[simp] theorem State.applyReset_patience : (s.applyReset).patience = s.patience := rfl

end

section
variable (s : State) (j : Job)

@[simp] theorem engineFrameWrite_cfg (n : Nat) : (engineFrameWrite j n s).cfg = s.cfg := rfl
@[simp] theorem engineFrameWrite_frameCopy (n : Nat) : (engineFrameWrite j n s).frameCopy = Memory.write s.frameCopy n (j.frame.getD n 0#8) := rfl
@[simp] theorem engineFrameWrite_buf (n : Nat) : (engineFrameWrite j n s).buf = s.buf := rfl
@[simp] theorem engineFrameWrite_ready (n : Nat) : (engineFrameWrite j n s).ready = s.ready := rfl
@[simp] theorem engineFrameWrite_busy (n : Nat) : (engineFrameWrite j n s).busy = s.busy := rfl
@[simp] theorem engineFrameWrite_curGen (n : Nat) : (engineFrameWrite j n s).curGen = s.curGen := rfl
@[simp] theorem engineFrameWrite_job (n : Nat) : (engineFrameWrite j n s).job = some { j with framePending := without j.framePending n } := rfl
@[simp] theorem engineFrameWrite_fault (n : Nat) : (engineFrameWrite j n s).fault = s.fault := rfl
@[simp] theorem engineFrameWrite_hostQueue (n : Nat) : (engineFrameWrite j n s).hostQueue = s.hostQueue := rfl
@[simp] theorem engineFrameWrite_renderQueue (n : Nat) : (engineFrameWrite j n s).renderQueue = s.renderQueue := rfl
@[simp] theorem engineFrameWrite_active (n : Nat) : (engineFrameWrite j n s).active = s.active := rfl
@[simp] theorem engineFrameWrite_responses (n : Nat) : (engineFrameWrite j n s).responses = s.responses := rfl
@[simp] theorem engineFrameWrite_schedule (n : Nat) : (engineFrameWrite j n s).schedule = s.schedule := rfl
@[simp] theorem engineFrameWrite_tick (n : Nat) : (engineFrameWrite j n s).tick = s.tick := rfl
@[simp] theorem engineFrameWrite_patience (n : Nat) : (engineFrameWrite j n s).patience = s.patience := rfl
@[simp] theorem engineWordWrite_cfg (p : WordPos) : (engineWordWrite j p s).cfg = s.cfg := rfl
@[simp] theorem engineWordWrite_frameCopy (p : WordPos) : (engineWordWrite j p s).frameCopy = s.frameCopy := rfl
@[simp] theorem engineWordWrite_buf (p : WordPos) : (engineWordWrite j p s).buf = Memory.write s.buf (bufIndex s.cfg j.tg p) (enc s.cfg j.frame p) := rfl
@[simp] theorem engineWordWrite_ready (p : WordPos) : (engineWordWrite j p s).ready = s.ready := rfl
@[simp] theorem engineWordWrite_busy (p : WordPos) : (engineWordWrite j p s).busy = s.busy := rfl
@[simp] theorem engineWordWrite_curGen (p : WordPos) : (engineWordWrite j p s).curGen = s.curGen := rfl
@[simp] theorem engineWordWrite_job (p : WordPos) : (engineWordWrite j p s).job = some { j with wordPending := without j.wordPending p } := rfl
@[simp] theorem engineWordWrite_fault (p : WordPos) : (engineWordWrite j p s).fault = s.fault := rfl
@[simp] theorem engineWordWrite_hostQueue (p : WordPos) : (engineWordWrite j p s).hostQueue = s.hostQueue := rfl
@[simp] theorem engineWordWrite_renderQueue (p : WordPos) : (engineWordWrite j p s).renderQueue = s.renderQueue := rfl
@[simp] theorem engineWordWrite_active (p : WordPos) : (engineWordWrite j p s).active = s.active := rfl
@[simp] theorem engineWordWrite_responses (p : WordPos) : (engineWordWrite j p s).responses = s.responses := rfl
@[simp] theorem engineWordWrite_schedule (p : WordPos) : (engineWordWrite j p s).schedule = s.schedule := rfl
@[simp] theorem engineWordWrite_tick (p : WordPos) : (engineWordWrite j p s).tick = s.tick := rfl
@[simp] theorem engineWordWrite_patience (p : WordPos) : (engineWordWrite j p s).patience = s.patience := rfl

end

section
variable (c : Config)

@[simp] theorem State.resetFor_cfg : (State.resetFor c).cfg = c := rfl
@[simp] theorem State.resetFor_frameCopy : (State.resetFor c).frameCopy = [] := rfl
@[simp] theorem State.resetFor_buf : (State.resetFor c).buf = [] := rfl
@[simp] theorem State.resetFor_ready : (State.resetFor c).ready = false := rfl
@[simp] theorem State.resetFor_busy : (State.resetFor c).busy = false := rfl
@[simp] theorem State.resetFor_curGen : (State.resetFor c).curGen = 0#1 := rfl
@[simp] theorem State.resetFor_job : (State.resetFor c).job = none := rfl
@[simp] theorem State.resetFor_fault : (State.resetFor c).fault = none := rfl
@[simp] theorem State.resetFor_hostQueue : (State.resetFor c).hostQueue = [] := rfl
@[simp] theorem State.resetFor_renderQueue : (State.resetFor c).renderQueue = [] := rfl
@[simp] theorem State.resetFor_active : (State.resetFor c).active = .host := rfl
@[simp] theorem State.resetFor_responses : (State.resetFor c).responses = [] := rfl
@[simp] theorem State.resetFor_schedule : (State.resetFor c).schedule = [] := rfl
@[simp] theorem State.resetFor_tick : (State.resetFor c).tick = 0 := rfl
@[simp] theorem State.resetFor_patience : (State.resetFor c).patience = 0 := rfl

end

end Sys2Proof.Machine
end

