-- ==== Sys2Proof/Laws/Ops.lean ====
section
/-! SUPPORT. What each shared operation does, said once: a response, a fault, the end of a cell read, the port queues, the engine's
choice of a pending cell, and the engine's step. -/

namespace Sys2Proof.Machine

theorem SameBlock.of_fields {s t : State} (hc : t.cfg = s.cfg) (hf : t.frameCopy = s.frameCopy) (hb : t.buf = s.buf)
    (hr : t.ready = s.ready) (hbusy : t.busy = s.busy) (hg : t.curGen = s.curGen) (hj : t.job = s.job) : SameBlock s t where
  cfg := hc
  frameRead n := by simp [State.frameRead, hf]
  bufRead i := by rw [hb]
  ready := hr
  busy := hbusy
  curGen := hg
  job := hj

theorem State.queue_retire (s : State) : s.retire.queue s.active = (s.queue s.active).tail := by
  cases h : s.active <;> simp [State.queue, h]

theorem State.queue_retire_other (s : State) {p : Port} (hp : p ≠ s.active) : s.retire.queue p = s.queue p := by
  cases h : s.active <;> cases p <;> simp_all [State.queue]

/-- `respond` takes the command, answers it, and does nothing else. -/
theorem State.respond_responds (s : State) (w : Word) : Responds s (s.respond w) w where
  response := rfl
  block := .of_fields rfl rfl rfl rfl rfl rfl rfl
  fault := rfl
  offer :=
    { taken := s.queue_retire
      other := fun _ hp => s.queue_retire_other hp
      active := rfl, schedule := rfl, tick := rfl, patience := rfl }

/-- `raise` takes the command, records the fault, and does nothing else. -/
theorem State.raise_faults (s : State) (code : FaultCode) (cmd : Word) : Faults s (s.raise code cmd) code cmd where
  fault := rfl
  responses := rfl
  block := .of_fields rfl rfl rfl rfl rfl rfl rfl
  offer :=
    { taken := s.queue_retire
      other := fun _ hp => s.queue_retire_other hp
      active := rfl, schedule := rfl, tick := rfl, patience := rfl }

/-- A response is no fault. -/
theorem Responds.not_faults {s t : State} {w : Word} {code : FaultCode} {cmd : Word} (h : Responds s t w) :
    ¬ Faults s t code cmd := fun h' => by
  have := h.response.symm.trans h'.responses
  simp at this

/-- Everything the end of a cell read can do. -/
theorem State.respondCell_cases (s : State) (cell : Option Word) (cmd : Word) :
    (s.ready = true ∧ ∃ w, cell = some w ∧ s.respondCell cell cmd = s.respond w) ∨
      ((s.ready = false ∨ cell = none) ∧ s.respondCell cell cmd = s.raise .notReady cmd) := by
  cases hr : s.ready <;> cases cell <;> simp [State.respondCell, hr]

section
variable {α : Type}

/-- The choice fails only on the empty set. -/
theorem pick_eq_none {set : List α} {choice : Nat} : pick set choice = none ↔ set = [] := by
  match set with
  | [] => simp [pick]
  | [a] => simp [pick]
  | a :: b :: rest =>
    simp only [pick, List.getElem?_eq_none_iff, List.length_cons, reduceCtorEq, iff_false, Nat.not_le]
    exact Nat.mod_lt _ (by omega)

/-- What is chosen is a member. -/
theorem pick_mem {set : List α} {choice : Nat} {a : α} (h : pick set choice = some a) : a ∈ set := by
  match set with
  | [] => simp [pick] at h
  | [x] => simp [pick] at h; simp [h]
  | x :: y :: rest => exact List.mem_of_getElem? h

/-- Every member can be chosen. -/
theorem exists_pick {set : List α} {a : α} (h : a ∈ set) : ∃ choice, pick set choice = some a := by
  match set with
  | [] => simp at h
  | [x] => simp at h; exact ⟨0, by simp [pick, h]⟩
  | x :: y :: rest =>
    obtain ⟨i, hi, rfl⟩ := List.mem_iff_getElem.1 h
    refine ⟨i, ?_⟩
    have hl : i % (rest.length + 2) = i := Nat.mod_eq_of_lt (by simp only [List.length_cons] at hi; omega)
    simp only [pick, hl]
    exact List.getElem?_eq_getElem hi

variable [DecidableEq α]

@[simp] theorem mem_without {set : List α} {a x : α} : x ∈ without set a ↔ x ∈ set ∧ x ≠ a := by
  simp [without]

theorem nodup_without {set : List α} (h : set.Nodup) (a : α) : (without set a).Nodup := h.filter _

theorem length_without {set : List α} (h : set.Nodup) {a : α} (ha : a ∈ set) : (without set a).length + 1 = set.length := by
  induction set with
  | nil => simp at ha
  | cons x rest ih =>
    obtain ⟨hx, hr⟩ := List.nodup_cons.1 h
    by_cases hxa : x = a
    · subst hxa
      have : without rest x = rest := List.filter_eq_self.2 fun y hy => by
        simp only [decide_eq_true_eq]; rintro rfl; exact hx hy
      simp only [without, ne_eq, not_true_eq_false, decide_false, List.filter_cons, Bool.false_eq_true, if_false,
        List.length_cons] at this ⊢
      rw [this]
    · have ha' : a ∈ rest := by rcases List.mem_cons.1 ha with h' | h' <;> simp_all
      have := ih hr ha'
      simp [without, hxa] at this ⊢
      omega

end

/-- Everything a step of the engine can do. -/
theorem engineStep_cases (choice : Nat) (s : State) :
    (s.halted = true ∧ engineStep choice s = s) ∨
    (s.halted = false ∧ s.job = none ∧ engineStep choice s = s) ∨
    (s.halted = false ∧ ∃ j, s.job = some j ∧
      ((∃ n, pick j.framePending choice = some n ∧ engineStep choice s = engineFrameWrite j n s) ∨
       (j.framePending = [] ∧ ∃ p, pick j.wordPending choice = some p ∧ engineStep choice s = engineWordWrite j p s) ∨
       (j.framePending = [] ∧ j.wordPending = [] ∧ engineStep choice s = s.commit j.tg))) := by
  cases hh : s.halted with
  | true => exact .inl ⟨rfl, by simp [engineStep, hh]⟩
  | false =>
    refine .inr ?_
    cases hj : s.job with
    | none => exact .inl ⟨rfl, rfl, by simp [engineStep, hh, hj]⟩
    | some j =>
      refine .inr ⟨rfl, j, rfl, ?_⟩
      cases hf : pick j.framePending choice with
      | some n => exact .inl ⟨n, rfl, by simp [engineStep, hh, hj, hf]⟩
      | none =>
        have hf' := pick_eq_none.1 hf
        cases hw : pick j.wordPending choice with
        | some p => exact .inr (.inl ⟨hf', p, rfl, by simp [engineStep, hh, hj, hf, hw]⟩)
        | none => exact .inr (.inr ⟨hf', pick_eq_none.1 hw, by simp [engineStep, hh, hj, hf, hw]⟩)

/-- A read of the buffer after a buffer write. -/
theorem State.bufRead_bufWrite (s : State) {g g' : BitVec 1} {p p' : WordPos} (v : Word) (hp : p.inRange s.cfg = true)
    (hp' : p'.inRange s.cfg = true) :
    (s.bufWrite g p v).bufRead g' p' = if g' = g ∧ p' = p then some v else s.bufRead g' p' := by
  simp only [State.bufRead, State.bufWrite_buf, State.bufWrite_cfg, Memory.read_write]
  by_cases h : g' = g ∧ p' = p
  · simp [h.1, h.2]
  · rw [if_neg fun he => h (bufIndex_inj s.cfg hp' hp he), if_neg h]

end Sys2Proof.Machine
end

