-- ==== Sys2Proof/Laws/Environment.lean ====
section
/-! SUPPORT. The environment's moves: what an offer changes, and what a response adds to a port's answers. -/

namespace Sys2Proof.Machine

@[simp] theorem State.offerOn_queue (s : State) (p : Port) (i : Instr) : (s.offerOn p i).queue p = s.queue p ++ [offer i] := by
  cases p <;> rfl

theorem State.offerOn_queue_other (s : State) {p q : Port} (i : Instr) (h : q ≠ p) : (s.offerOn p i).queue q = s.queue q := by
  cases p <;> cases q <;> first | rfl | exact absurd rfl h

/-- An offer changes the two lists of offers and nothing else. -/
theorem State.offerOn_rest (s : State) (p : Port) (i : Instr) :
    s.offerOn p i = { s with hostQueue := (s.offerOn p i).hostQueue, renderQueue := (s.offerOn p i).renderQueue } := by
  cases p <;> rfl

@[simp] theorem State.offerOn_cfg (s : State) (p : Port) (i : Instr) : (s.offerOn p i).cfg = s.cfg := by cases p <;> rfl
@[simp] theorem State.offerOn_busy (s : State) (p : Port) (i : Instr) : (s.offerOn p i).busy = s.busy := by cases p <;> rfl
@[simp] theorem State.offerOn_fault (s : State) (p : Port) (i : Instr) : (s.offerOn p i).fault = s.fault := by cases p <;> rfl
@[simp] theorem State.offerOn_responses (s : State) (p : Port) (i : Instr) : (s.offerOn p i).responses = s.responses := by
  cases p <;> rfl

/-- A response to port `p` is the newest of its answers. -/
theorem State.answersOn_append (s t : State) (p : Port) {start : Nat} (w : Word) (h : start ≤ s.responses.length)
    (ht : t.responses = s.responses ++ [⟨p, w⟩]) : t.answersOn p start = s.answersOn p start ++ [w] := by
  simp [State.answersOn, ht, List.drop_append_of_le_length h]

/-- A response to the other port is none of its answers. -/
theorem State.answersOn_other (s t : State) {p q : Port} {start : Nat} (w : Word) (h : start ≤ s.responses.length) (hq : q ≠ p)
    (ht : t.responses = s.responses ++ [⟨q, w⟩]) : t.answersOn p start = s.answersOn p start := by
  simp [State.answersOn, ht, List.drop_append_of_le_length h, hq]

end Sys2Proof.Machine
end

