-- ==== Sys2Proof/Laws/PerInstr.lean ====
section
/-! SUPPORT. Statements made per instruction. RowEncoding: the encoder's word has exactly the fixed bits of the command's row of
spec/opcode_table.json (rules R82 to R86). -/

namespace Sys2Proof.Laws.RowEncoding

/-- The word of `i` under the row's mask is the row's match. -/
def Statement (i : Instr) : Prop := Sys2Proof.encode i &&& opcodeMask i = opcodeMatch i

theorem encode (len : BitVec 24) : Statement (.encode len) := by
  refine BitVec.eq_of_getLsbD_eq fun i hi => ?_
  simp only [Sys2Proof.encode, opcodeMask, opcodeMatch, BitVec.getLsbD_and, BitVec.getLsbD_append]
  interval_cases i <;> simp

theorem rdword (gen : BitVec 1) (plane : BitVec 3) (row idx : BitVec 12) : Statement (.rdword gen plane row idx) := by
  refine BitVec.eq_of_getLsbD_eq fun i hi => ?_
  simp only [Sys2Proof.encode, opcodeMask, opcodeMatch, BitVec.getLsbD_and, BitVec.getLsbD_append]
  interval_cases i <;> simp

theorem rddelay (phase : BitVec 3) : Statement (.rddelay phase) := by
  refine BitVec.eq_of_getLsbD_eq fun i hi => ?_
  simp only [Sys2Proof.encode, opcodeMask, opcodeMatch, BitVec.getLsbD_and, BitVec.getLsbD_append]
  interval_cases i <;> simp

theorem rdstatus : Statement .rdstatus := by
  unfold Statement
  decide

theorem rdframe (row col : BitVec 12) : Statement (.rdframe row col) := by
  refine BitVec.eq_of_getLsbD_eq fun i hi => ?_
  simp only [Sys2Proof.encode, opcodeMask, opcodeMatch, BitVec.getLsbD_and, BitVec.getLsbD_append]
  interval_cases i <;> simp

end Sys2Proof.Laws.RowEncoding
end

