-- ==== Sys2Proof/Laws/Step.lean ====
section
/-! SUPPORT. What a command, a port and the whole block can do in one step, said once by cases. -/

namespace Sys2Proof.Machine

/-- Everything a command can do: respond, fault, hold (ENCODE while busy), or start a job (ENCODE). -/
theorem exec_cases {i : Instr} {s t : State} (h : exec i s = .next t) :
    (∃ w, t = s.respond w) ∨
    (∃ code, t = s.raise code (encode i)) ∨
    (∃ len, i = .encode len ∧ s.active = .host ∧ frameSizeOk s.cfg len s.payload = true ∧ s.busy = true ∧ t = s) ∨
    (∃ len, i = .encode len ∧ s.active = .host ∧ frameSizeOk s.cfg len s.payload = true ∧ s.busy = false ∧
      t = s.retire.startJob s.payload) := by
  cases i with
  | encode len =>
    simp only [exec, execEncode] at h
    split at h
    · exact .inr (.inl ⟨_, by simpa using h.symm⟩)
    · have ha : s.active = .host := by cases hp : s.active <;> simp_all
      split at h
      · rename_i hf
        cases hb : s.busy with
        | true => exact .inr (.inr (.inl ⟨len, rfl, ha, hf, rfl, by simpa [hb] using h.symm⟩))
        | false => exact .inr (.inr (.inr ⟨len, rfl, ha, hf, rfl, by simpa [hb] using h.symm⟩))
      · exact .inr (.inl ⟨_, by simpa using h.symm⟩)
  | rdword gen plane row idx =>
    simp only [exec, execRdword] at h
    split at h
    · injection h with h
      rcases s.respondCell_cases (s.bufRead gen (wordPosOf plane row idx)) (encode (.rdword gen plane row idx)) with
        ⟨_, w, _, hw⟩ | ⟨_, hw⟩
      · exact .inl ⟨w, by rw [← h, hw]⟩
      · exact .inr (.inl ⟨_, by rw [← h, hw]⟩)
    · exact .inr (.inl ⟨_, by simpa using h.symm⟩)
  | rddelay phase => exact .inl ⟨_, by simpa [exec, execRddelay] using h.symm⟩
  | rdstatus => exact .inl ⟨_, by simpa [exec, execRdstatus] using h.symm⟩
  | rdframe row col =>
    simp only [exec, execRdframe] at h
    split at h
    · injection h with h
      rcases s.respondCell_cases ((s.frameRead (frameIndex s.cfg row.toNat col.toNat)).map (·.setWidth 32))
        (encode (.rdframe row col)) with ⟨_, w, _, hw⟩ | ⟨_, hw⟩
      · exact .inl ⟨w, by rw [← h, hw]⟩
      · exact .inr (.inl ⟨_, by rw [← h, hw]⟩)
    · exact .inr (.inl ⟨_, by simpa using h.symm⟩)

/-- Every meaning answers a next state, on every operand and in every state. -/
theorem exec_next (i : Instr) (s : State) : ∃ t, exec i s = .next t := by
  cases i with
  | encode len => simp only [exec, execEncode]; split <;> [exact ⟨_, rfl⟩; (split <;> [(split <;> exact ⟨_, rfl⟩); exact ⟨_, rfl⟩])]
  | rdword gen plane row idx => simp only [exec, execRdword]; split <;> exact ⟨_, rfl⟩
  | rddelay phase => exact ⟨_, rfl⟩
  | rdstatus => exact ⟨_, rfl⟩
  | rdframe row col => simp only [exec, execRdframe]; split <;> exact ⟨_, rfl⟩

/-- `t` is `s` but for the scheduler's own data and the port marked active. -/
structure Rescheduled (s t : State) : Prop where
  cfg         : t.cfg = s.cfg
  frameCopy   : t.frameCopy = s.frameCopy
  buf         : t.buf = s.buf
  ready       : t.ready = s.ready
  busy        : t.busy = s.busy
  curGen      : t.curGen = s.curGen
  job         : t.job = s.job
  fault       : t.fault = s.fault
  hostQueue   : t.hostQueue = s.hostQueue
  renderQueue : t.renderQueue = s.renderQueue
  responses   : t.responses = s.responses

theorem Rescheduled.refl (s : State) : Rescheduled s s := ⟨rfl, rfl, rfl, rfl, rfl, rfl, rfl, rfl, rfl, rfl, rfl⟩

theorem Rescheduled.queue {s t : State} (h : Rescheduled s t) (p : Port) : t.queue p = s.queue p := by
  cases p
  · exact h.hostQueue
  · exact h.renderQueue

/-- Everything a port's step can do. -/
theorem portStep_cases {p : Port} {s t : State} (h : portStep p s = .next t) :
    ((s.halted = true ∨ s.queue p = []) ∧ t = s) ∨
    (s.halted = false ∧ ∃ tr rest, s.queue p = tr :: rest ∧ runCommand tr.cmd { s with active := p } = .next t) := by
  cases hh : s.halted with
  | true => exact .inl ⟨.inl rfl, by simpa [portStep, hh] using h.symm⟩
  | false =>
    cases hq : s.queue p with
    | nil => exact .inl ⟨.inr rfl, by simpa [portStep, hh, hq] using h.symm⟩
    | cons tr rest => exact .inr ⟨rfl, tr, rest, rfl, by simpa [portStep, hh, hq] using h⟩

/-- A port's step always answers a next state. -/
theorem portStep_next (p : Port) (s : State) : ∃ t, portStep p s = .next t := by
  unfold portStep runCommand
  split
  · exact ⟨_, rfl⟩
  · split
    · exact ⟨_, rfl⟩
    · split
      · exact exec_next _ _
      · exact ⟨_, rfl⟩

/-- Everything a step of the block can do, up to the scheduler's data, and whose step it is: nothing, a command on the port that
moves, an engine step, a reset. -/
theorem step_agents {s t : State} (h : step s = .next t) :
    s.cfg.wf = true ∧ ∃ u, Rescheduled s u ∧
      (t = u ∨
       (s.halted = false ∧ ∃ p tr rest, s.Moves (.port p) ∧ u.active = p ∧ u.queue p = tr :: rest ∧
         runCommand tr.cmd u = .next t) ∨
       (s.Moves .engine ∧ ∃ choice, t = engineStep choice u) ∨
       (t = u.applyReset ∧ ∃ rest, s.schedule = .reset :: rest)) := by
  have port : ∀ (v : State) (p : Port), s.Moves (.port p) → Rescheduled s v → portStep p v = .next t →
      ∃ u, Rescheduled s u ∧
      (t = u ∨
       (s.halted = false ∧ ∃ p tr rest, s.Moves (.port p) ∧ u.active = p ∧ u.queue p = tr :: rest ∧
         runCommand tr.cmd u = .next t) ∨
       (s.Moves .engine ∧ ∃ choice, t = engineStep choice u) ∨
       (t = u.applyReset ∧ ∃ rest, s.schedule = .reset :: rest)) := by
    intro v p hm hv hp
    rcases portStep_cases hp with ⟨_, rfl⟩ | ⟨hh, tr, rest, hq, hr⟩
    · exact ⟨_, hv, .inl rfl⟩
    · refine ⟨{ v with active := p }, ⟨hv.cfg, hv.frameCopy, hv.buf, hv.ready, hv.busy, hv.curGen, hv.job, hv.fault,
        hv.hostQueue, hv.renderQueue, hv.responses⟩, .inr (.inl ⟨?_, p, tr, rest, hm, rfl, ?_, hr⟩)⟩
      · simpa [State.halted, hv.fault] using hh
      · cases p <;> exact hq
  unfold step at h
  split at h
  · rename_i hwf
    refine ⟨hwf, ?_⟩
    split at h
    · rename_i m rest hs
      have hr : Rescheduled s { s with schedule := rest } := ⟨rfl, rfl, rfl, rfl, rfl, rfl, rfl, rfl, rfl, rfl, rfl⟩
      cases m with
      | port p => exact port _ p (.inr ⟨rest, hs⟩) hr h
      | engine choice => exact ⟨_, hr, .inr (.inr (.inl ⟨.inr ⟨choice, rest, hs⟩, choice, by simpa [moveStep] using h.symm⟩))⟩
      | reset => exact ⟨_, hr, .inr (.inr (.inr ⟨by simpa [moveStep] using h.symm, rest, hs⟩))⟩
    · rename_i hs
      unfold freeStep at h
      split at h
      · simp at h
      · split at h
        · exact ⟨s, .refl s, .inl (by simpa using h.symm)⟩
        · rename_i hc
          exact ⟨s.advance .engine, ⟨rfl, rfl, rfl, rfl, rfl, rfl, rfl, rfl, rfl, rfl, rfl⟩,
            .inr (.inr (.inl ⟨.inl ⟨hs, hc⟩, _, by simpa using h.symm⟩))⟩
        · rename_i p hc
          exact port (s.advance (.port p)) p (.inl ⟨hs, hc⟩) ⟨rfl, rfl, rfl, rfl, rfl, rfl, rfl, rfl, rfl, rfl, rfl⟩ h
  · simp at h

/-- The same without whose step it is. -/
theorem step_cases {s t : State} (h : step s = .next t) :
    s.cfg.wf = true ∧ ∃ u, Rescheduled s u ∧
      (t = u ∨
       (s.halted = false ∧ ∃ p tr rest, u.active = p ∧ u.queue p = tr :: rest ∧ runCommand tr.cmd u = .next t) ∨
       (∃ choice, t = engineStep choice u) ∨
       (t = u.applyReset ∧ ∃ rest, s.schedule = .reset :: rest)) := by
  obtain ⟨hw, u, hu, h | ⟨hh, p, tr, rest, -, h⟩ | ⟨-, h⟩ | h⟩ := step_agents h
  · exact ⟨hw, u, hu, .inl h⟩
  · exact ⟨hw, u, hu, .inr (.inl ⟨hh, p, tr, rest, h⟩)⟩
  · exact ⟨hw, u, hu, .inr (.inr (.inl h))⟩
  · exact ⟨hw, u, hu, .inr (.inr (.inr h))⟩

/-- Everything running an offered word can do: it is no command and faults, or its command runs. -/
theorem runCommand_cases {cmd : Word} {s t : State} (h : runCommand cmd s = .next t) :
    (∃ r, decode cmd = .error r ∧ t = s.raise .illegalCmd cmd) ∨ (∃ i, decode cmd = .ok i ∧ exec i s = .next t) := by
  unfold runCommand at h
  split at h
  · exact .inr ⟨_, by assumption, h⟩
  · exact .inl ⟨_, by assumption, by simpa using h.symm⟩

/-- A run of no step. -/
@[simp] theorem runSteps_zero (s : State) : runSteps 0 s = .next s := rfl

/-- A run whose first step answers a next state goes on from there. -/
theorem runSteps_succ {s t : State} (h : step s = .next t) (n : Nat) : runSteps (n + 1) s = runSteps n t := by
  have hc : core.step s = .next t := h
  simp only [runSteps, Host.Core.run, hc]
  rfl

/-- A run that gets through `a` steps goes on from where they end. -/
theorem runSteps_add {s t : State} {a : Nat} (h : runSteps a s = .next t) (b : Nat) :
    runSteps (a + b) s = runSteps b t := by
  induction a generalizing s with
  | zero => rw [runSteps_zero] at h; injection h with h; subst h; rw [Nat.zero_add]
  | succ a ih =>
    cases hs : step s with
    | next u => rw [runSteps_succ hs] at h; rw [Nat.add_right_comm, runSteps_succ hs, ih h]
    | fault r => have hc : core.step s = .fault r := hs; simp [runSteps, Host.Core.run, hc] at h
    | refused r => have hc : core.step s = .refused r := hs; simp [runSteps, Host.Core.run, hc] at h

/-- A scripted move of an unrefused block. -/
theorem step_scripted {s : State} {m : Move} {moves : List Move} (hw : s.cfg.wf = true) (hs : s.schedule = m :: moves) :
    step s = moveStep m { s with schedule := moves } := by
  simp [step, hw, hs]

/-- A port's step with a command at its head. -/
theorem portStep_command {s : State} {p : Port} {tr : Transaction} {rest : List Transaction} (hf : s.fault = none)
    (hq : s.queue p = tr :: rest) : portStep p s = runCommand tr.cmd { s with active := p } := by
  simp [portStep, State.halted, hf, hq]

/-- A held port takes nothing: the only change is the mark of the active port. -/
theorem portStep_held {s : State} (h : s.hostHeld = true) (hf : s.fault = none) :
    portStep .host s = .next { s with active := .host } := by
  unfold State.hostHeld at h
  obtain ⟨hb, hd⟩ := (Bool.and_eq_true _ _).mp h
  cases hq : s.hostQueue with
  | nil => simp [hq] at hd
  | cons tr rest =>
    rw [portStep_command (p := .host) hf hq]
    simp only [hq] at hd
    split at hd
    · rename_i len hdec
      simp [runCommand, hdec, exec, execEncode, State.payload, State.queue, hq, hd, hb]
    · simp at hd
    · simp at hd

end Sys2Proof.Machine
end

