-- ==== Sys2Proof/Tests/Slice0.lean ====
section
/-! SUPPORT. The model's own tests: the WellFormed smoke, decoding of words written out from the spec, the encoding function and one
step per command against the vectors of spec/95_test_vectors.md, and for every obligation with hypotheses a concrete state and
operands that meet them. -/

namespace Sys2Proof.Tests

open Sys2Proof Sys2Proof.Machine

/-! ### WellFormed: one ill-formed term per check -/

/-- The table of V-DLY-2 whose ratio is exactly 2 everywhere. -/
def powersOf2 : Vector Word 8 := #v[1, 2, 4, 8, 16, 32, 64, 128]
/-- The table of V-DLY-2 whose ratio is exactly 3.5 at phase 1. -/
def ratio35 : Vector Word 8 := #v[5, 10, 35, 70, 140, 280, 560, 1120]
/-- The table of V-DLY-2 whose first entry is 0. -/
def zeroFirst : Vector Word 8 := #v[0, 1, 2, 4, 8, 16, 32, 64]
/-- The largest configuration of rule R5. -/
def largest : Config := ⟨204, 204, ratio35, 2, .logical⟩

theorem test_wf_examples : Config.t1.wf = true ∧ Config.t2.wf = true ∧ Config.t2g.wf = true ∧ largest.wf = true := by decide
theorem test_wf_no_rows : Config.wf { Config.t1 with rowModules := 0 } = false := by decide
theorem test_wf_many_rows : Config.wf { Config.t1 with rowModules := 205 } = false := by decide
theorem test_wf_no_cols : Config.wf { Config.t1 with colModules := 0 } = false := by decide
theorem test_wf_many_cols : Config.wf { Config.t1 with colModules := 205 } = false := by decide
theorem test_wf_no_generation : Config.wf { Config.t1 with generations := 0 } = false := by decide
theorem test_wf_three_generations : Config.wf { Config.t1 with generations := 3 } = false := by decide
theorem test_wf_bad_table : Config.wf { Config.t1 with delayLut := zeroFirst } = false := by decide

/-- V-DLY-2, the accepted tables. -/
theorem test_delay_accepted :
    delayTableOk exampleDelay = true ∧ delayTableOk powersOf2 = true ∧
      delayTableOk #v[1, 3, 9, 27, 81, 243, 729, 2187] = true ∧ delayTableOk ratio35 = true := by decide
/-- V-DLY-2, the refused tables: ratio 4, last ratio below 2, first entry 0. -/
theorem test_delay_refused :
    delayTableOk #v[1, 4, 16, 64, 256, 1024, 4096, 16384] = false ∧
      delayTableOk #v[10, 20, 40, 80, 160, 320, 640, 1279] = false ∧ delayTableOk zeroFirst = false := by decide

theorem test_wf_encode : Instr.wf Config.t1 (.encode 400) = true ∧ Instr.wf Config.t1 (.encode 399) = false := by decide
theorem test_wf_rdword_gen : Instr.wf Config.t1 (.rdword 1 0 0 0) = false ∧ Instr.wf Config.t2g (.rdword 1 7 39 2) = true := by
  decide
theorem test_wf_rdword_row : Instr.wf Config.t1 (.rdword 0 0 20 0) = false ∧ Instr.wf Config.t1 (.rdword 0 7 19 1) = true := by
  decide
theorem test_wf_rdword_idx : Instr.wf Config.t1 (.rdword 0 0 0 2) = false := by decide
theorem test_wf_rdframe_row : Instr.wf Config.t1 (.rdframe 20 0) = false := by decide
theorem test_wf_rdframe_col : Instr.wf Config.t1 (.rdframe 0 20) = false ∧ Instr.wf Config.t1 (.rdframe 19 19) = true := by decide
theorem test_wf_transaction :
    transactionWf ⟨0x10000002#32, [0, 0]⟩ = true ∧ transactionWf ⟨0x10000002#32, [0]⟩ = false ∧
      transactionWf ⟨0x40000000#32, [0]⟩ = false ∧ transactionWf ⟨0#32, [0]⟩ = false := by decide

/-! ### Decoding: words written out bit by bit from rules R82 to R86 -/

/-- R82: 0001 : 0000 : LEN = 0x0ABCDE. -/
theorem test_decode_encode : decode 0b00010000000010101011110011011110#32 = .ok (.encode 0x0ABCDE) := by decide
/-- R83: 0010 : GEN 1 : PLANE 101 : ROW 000000000011 : IDX 000000000001 (V-DEC 2D003001). -/
theorem test_decode_rdword : decode 0b00101101000000000011000000000001#32 = .ok (.rdword 1 5 3 1) := by decide
/-- R84: 0011 : 0 : PHASE 110 : zeros. -/
theorem test_decode_rddelay : decode 0b00110110000000000000000000000000#32 = .ok (.rddelay 6) := by decide
/-- R85. -/
theorem test_decode_rdstatus : decode 0b01000000000000000000000000000000#32 = .ok .rdstatus := by decide
/-- R86: 0101 : 0000 : ROW 000000000111 : COL 100000000010. -/
theorem test_decode_rdframe : decode 0b01010000000000000111100000000010#32 = .ok (.rdframe 7 0x802) := by decide
/-- R89 (section 2.10): reserved operations. -/
theorem test_decode_reserved_op :
    decode 0x00000000#32 = .error .reservedOp ∧ decode 0x60000000#32 = .error .reservedOp ∧
      decode 0x7FFFFFFF#32 = .error .reservedOp ∧ decode 0xF0000000#32 = .error .reservedOp := by decide
/-- R90: each command's lowest and highest reserved bit. -/
theorem test_decode_reserved_bits :
    decode 0x11000190#32 = .error .reservedBits ∧ decode 0x18000190#32 = .error .reservedBits ∧
      decode 0x38000000#32 = .error .reservedBits ∧ decode 0x30000001#32 = .error .reservedBits ∧
      decode 0x30800000#32 = .error .reservedBits ∧ decode 0x40000001#32 = .error .reservedBits ∧
      decode 0x48000000#32 = .error .reservedBits ∧ decode 0x51014000#32 = .error .reservedBits ∧
      decode 0x58000000#32 = .error .reservedBits := by decide
/-- R92: the words the assembler lines of section 2 stand for. -/
theorem test_encode_words :
    encode (.encode 400) = 0x10000190#32 ∧ encode (.rdword 0 0 19 0) = 0x20013000#32 ∧ encode (.rddelay 7) = 0x37000000#32 ∧
      encode .rdstatus = 0x40000000#32 ∧ encode (.rdframe 19 19) = 0x50013013#32 := by decide
/-- The table's numbering: one 32-bit word, bit 0 its lowest. -/
theorem test_table_word : decodeTableWord 32 0x2F000000 = some (.rdword 1 7 0 0) ∧ decodeTableWord 32 0x60000000 = none := by decide

/-! ### The encoding function (sections 2.1 to 2.4) -/

/-- V-PW-1: one set pixel, each of the 20 positions. -/
theorem test_pixel_single :
    (List.range 20).map (fun j => accumulate (stages fun i => decide (i = j))) =
      [0x2, 0x4, 0x8, 0x10, 0x20, 0x40, 0x100, 0x200, 0x400, 0x800, 0x1000, 0x2000, 0x4000, 0x10000, 0x20000, 0x40000, 0x80000,
        0x100000, 0x200000, 0x400000] := by decide
/-- V-PW-2: all 1, even positions, odd positions. -/
theorem test_pixel_patterns :
    accumulate (stages fun _ => true) = 0x007F7F7E#32 ∧ accumulate (stages fun j => decide (j % 2 = 0)) = 0x002A552A#32 ∧
      accumulate (stages fun j => decide (j % 2 = 1)) = 0x00552A54#32 := by decide
/-- V-PW-3: the ramp group, plane by plane. -/
theorem test_pixel_ramp :
    (List.range 8).map (fun b => accumulate (stages fun j => (BitVec.ofNat 8 j).getLsbD b)) =
      [0x00552A54, 0x00663318, 0x00074360, 0x00077C00, 0x00780000, 0, 0, 0] := by decide

/-- The configuration with the other pulse-row basis. -/
def logical (c : Config) : Config := { c with pulseRowBasis := .logical }

/-- The rows whose row-control word is not 2, with their words. -/
def oddRows (c : Config) : List (Nat × Word) :=
  ((List.range c.rowCount).map fun y => (y, ctrlWord c y)).filter fun r => decide (r.2 ≠ 2#32)

/-- V-CTRL-1, configuration T1. -/
theorem test_ctrl_t1 :
    oddRows Config.t1 = [(0, 5), (6, 4), (13, 4)] ∧ oddRows (logical Config.t1) = [(0, 3), (6, 4), (13, 4), (19, 4)] := by decide
/-- V-CTRL-1, configuration T2. -/
theorem test_ctrl_t2 :
    oddRows Config.t2 = [(0, 5), (6, 4), (13, 4), (20, 4), (26, 4), (33, 4)] ∧
      oddRows (logical Config.t2) = [(0, 3), (6, 4), (13, 4), (19, 4), (26, 4), (33, 4), (39, 4)] := by decide

/-- The frame of V-ENC-3: byte `n` is `n mod 256`. -/
def ramp : List Byte := (List.range Config.t2.frameBytes).map fun n => BitVec.ofNat 8 n

/-- V-ENC-2: the single-pixel frame in T1. -/
theorem test_enc_single :
    enc Config.t1 (frameSet Config.t1 0 [(0, 0xFF)]) ⟨7, 19, 0⟩ = 0x80000002#32 ∧
      enc Config.t1 (frameSet Config.t1 0 [(0, 0xFF)]) ⟨3, 18, 0⟩ = 0x80000000#32 := by decide +kernel
/-- V-ENC-3: words of the ramp frame in T2. -/
theorem test_enc_ramp :
    enc Config.t2 ramp ⟨2, 0, 0⟩ = 0x00074360#32 ∧ enc Config.t2 ramp ⟨2, 0, 1⟩ = 0x80783C1E#32 ∧
      enc Config.t2 ramp ⟨4, 39, 1⟩ = 0x80003F7E#32 ∧ enc Config.t2 ramp ⟨3, 20, 0⟩ = 0x0078037E#32 ∧
      enc Config.t2 ramp ⟨3, 20, 2⟩ = 0x00000004#32 ∧ enc Config.t2 ramp ⟨0, 0, 2⟩ = 0x00000005#32 := by decide +kernel

/-! ### One step per command (sections 2.5 to 2.11) -/

/-- A block right after reset, one transaction offered on a port and that port's step scripted. -/
def offered (c : Config) (p : Port) (t : Transaction) : State :=
  match p with
  | .host => { State.resetFor c with hostQueue := [t], schedule := [.port .host] }
  | .render => { State.resetFor c with renderQueue := [t], schedule := [.port .render] }

/-- A property of the next state, false where there is none. -/
def nextHas (o : Host.Outcome State Fault Refusal) (p : State → Bool) : Bool :=
  match o with
  | .next s => p s
  | .fault _ => false
  | .refused _ => false

/-- V-CMD-ENC-1: the job of `ENCODE 400`. -/
theorem test_encode_accepted :
    nextHas (step (offered Config.t1 .host ⟨0x10000190#32, frameFill Config.t1 0⟩)) (fun s =>
      s.busy && !s.ready && s.fault.isNone &&
        (s.job.map fun j => (j.framePending.length, j.wordPending.length)) == some (400, 320)) = true := by decide +kernel
/-- V-CMD-ENC-2 and V-CMD-ENC-3: wrong length, and the wrong port. -/
theorem test_encode_faults :
    nextHas (step (offered Config.t1 .host ⟨0x1000018F#32, List.replicate 399 0⟩)) (fun s =>
      s.fault == some ⟨.frameSize, .host, 0x1000018F#32⟩ && s.job.isNone && !s.busy) = true ∧
    nextHas (step (offered Config.t1 .render ⟨0x10000190#32, frameFill Config.t1 0⟩)) (fun s =>
      s.fault == some ⟨.illegalCmd, .render, 0x10000190#32⟩) = true := by decide +kernel
/-- V-RD-10 and V-PRI-1: not ready, and range before not ready. -/
theorem test_rdword_faults :
    nextHas (step (offered Config.t1 .render ⟨0x20000000#32, []⟩)) (fun s =>
      s.fault == some ⟨.notReady, .render, 0x20000000#32⟩) = true ∧
    nextHas (step (offered Config.t1 .host ⟨0x20014000#32, []⟩)) (fun s =>
      s.fault == some ⟨.range, .host, 0x20014000#32⟩) = true := by decide +kernel
/-- V-DLY-1: phase 7 after reset, and V-DLY-3: a reserved bit. -/
theorem test_rddelay :
    nextHas (step (offered Config.t1 .render ⟨0x37000000#32, []⟩)) (fun s => s.responses == [⟨.render, 61035#32⟩]) = true ∧
    nextHas (step (offered Config.t1 .host ⟨0x38000000#32, []⟩)) (fun s =>
      s.fault == some ⟨.illegalCmd, .host, 0x38000000#32⟩) = true := by decide +kernel
/-- V-ST-1: after reset, and V-ST-8: a reserved bit. -/
theorem test_rdstatus_reset :
    nextHas (step (offered Config.t1 .render ⟨0x40000000#32, []⟩)) (fun s => s.responses == [⟨.render, 0#32⟩]) = true ∧
    nextHas (step (offered Config.t1 .render ⟨0x40000001#32, []⟩)) (fun s =>
      s.fault == some ⟨.illegalCmd, .render, 0x40000001#32⟩) = true := by decide +kernel
/-- V-ST-2, V-ST-6: the first job in flight, and a second one with two generations. -/
theorem test_rdstatus_flags :
    nextHas (exec .rdstatus { State.reset with busy := true }) (fun s => s.responses == [⟨.host, 2#32⟩]) = true ∧
    nextHas (exec .rdstatus { State.resetFor Config.t2g with ready := true, busy := true, curGen := 1 }) (fun s =>
      s.responses == [⟨.host, 7#32⟩]) = true := by decide +kernel
/-- V-FR-1 on a block that holds the byte, and V-FR-4. -/
theorem test_rdframe :
    nextHas (exec (.rdframe 0 0) { State.reset with ready := true, frameCopy := [(0, 0xFF)] }) (fun s =>
      s.responses == [⟨.host, 0xFF#32⟩]) = true ∧
    nextHas (step (offered Config.t1 .render ⟨0x50000014#32, []⟩)) (fun s =>
      s.fault == some ⟨.range, .render, 0x50000014#32⟩) = true := by decide +kernel
/-- V-RD-4 on a block that holds the word of row 0, word 1 of plane 3: linear index (3 x 20 + 0) x 2 + 1. -/
theorem test_rdword_cell :
    nextHas (exec (.rdword 0 3 0 1) { State.reset with ready := true, buf := [(121, 5)] }) (fun s =>
      s.responses == [⟨.host, 5#32⟩] && s.fault.isNone) = true := by decide +kernel
/-- The word of every row of the opcode table runs as the first command after reset. -/
theorem test_fetch_every_row :
    nextHas (step (State.reset.withFetchWord 32 0x10000190)) (fun s => s.busy) = true ∧
    nextHas (step (State.reset.withFetchWord 32 0x10000000)) (fun s => s.fault.isSome) = true ∧
    nextHas (step (State.reset.withFetchWord 32 0x20000000)) (fun s => s.fault.isSome) = true ∧
    nextHas (step (State.reset.withFetchWord 32 0x30000000)) (fun s => s.responses == [⟨.host, 100#32⟩]) = true ∧
    nextHas (step (State.reset.withFetchWord 32 0x40000000)) (fun s => s.responses == [⟨.host, 0#32⟩]) = true ∧
    nextHas (step (State.reset.withFetchWord 32 0x50000000)) (fun s => s.fault.isSome) = true := by decide +kernel


/-! ### States that meet the hypotheses of the statements -/

/-- A space with every cell below `n` listed. -/
def table {α : Type} (n : Nat) (f : Nat → α) : Memory α := (List.range' 0 n).map fun i => (i, f i)

theorem read_tableFrom {α : Type} (f : Nat → α) (n lo i : Nat) (hl : lo ≤ i) (hi : i < lo + n) :
    Memory.read ((List.range' lo n).map fun i => (i, f i)) i = some (f i) := by
  induction n generalizing lo with
  | zero => omega
  | succ n ih =>
    by_cases h : i = lo
    · simp [List.range'_succ, Memory.read, h]
    · simp [List.range'_succ, Memory.read, h, ih (lo + 1) (by omega) (by omega)]

theorem wf_tableFrom {α : Type} (f : Nat → α) (n lo size : Nat) (h : lo + n ≤ size) :
    Memory.wfFrom lo size ((List.range' lo n).map fun i => (i, f i)) = true := by
  induction n generalizing lo with
  | zero => rfl
  | succ n ih => simp [List.range'_succ, Memory.wfFrom, ih (lo + 1) (by omega)]; omega

theorem read_table {α : Type} (f : Nat → α) {n i : Nat} (hi : i < n) : Memory.read (table n f) i = some (f i) :=
  read_tableFrom f n 0 i (Nat.zero_le i) (by omega)

theorem wf_table {α : Type} (f : Nat → α) (n : Nat) : Memory.wf n (table n f) = true := wf_tableFrom f n 0 n (by omega)

/-- The position a linear index stands for. -/
def posOf (c : Config) (a : Nat) : WordPos :=
  ⟨a / c.wordsPerRow / c.rowCount % 8, a / c.wordsPerRow % c.rowCount, a % c.wordsPerRow⟩

theorem posOf_bufIndex (c : Config) (g : BitVec 1) {p : WordPos} (hp : p.inRange c = true) : posOf c (bufIndex c g p) = p := by
  obtain ⟨b, y, k⟩ := p
  rw [WordPos.inRange_iff] at hp
  obtain ⟨hb, hy, hk⟩ := hp
  dsimp only at hb hy hk
  have h₁ : (((g.toNat * 8 + b) * c.rowCount + y) * c.wordsPerRow + k) / c.wordsPerRow = (g.toNat * 8 + b) * c.rowCount + y := by
    rw [Nat.mul_comm _ c.wordsPerRow, Nat.mul_add_div (by omega), Nat.div_eq_of_lt hk, Nat.add_zero]
  have h₂ : ((g.toNat * 8 + b) * c.rowCount + y) / c.rowCount = g.toNat * 8 + b := by
    rw [Nat.mul_comm _ c.rowCount, Nat.mul_add_div (by omega), Nat.div_eq_of_lt hy, Nat.add_zero]
  simp only [posOf, bufIndex, colorBits_eq, h₁, h₂, WordPos.mk.injEq]
  refine ⟨by omega, ?_, ?_⟩
  · rw [Nat.mul_comm, Nat.mul_add_mod, Nat.mod_eq_of_lt hy]
  · rw [Nat.mul_comm, Nat.mul_add_mod, Nat.mod_eq_of_lt hk]

/-- An idle ready block: the frame copy holds `g`, every generation holds the encoding of `f`. -/
def holding (c : Config) (g f : List Byte) : State :=
  { State.resetFor c with
    frameCopy := table c.frameBytes fun n => g.getD n 0#8
    buf := table c.bufWords fun a => enc c f (posOf c a)
    ready := true }

theorem holding_frame (c : Config) (g f : List Byte) {n : Nat} (h : n < c.frameBytes) :
    (holding c g f).frameRead n = some (g.getD n 0#8) := read_table _ h

theorem holding_word {c : Config} (g f : List Byte) {gen : BitVec 1} {p : WordPos} (hg : gen.toNat < c.generations)
    (hp : p.inRange c = true) : (holding c g f).bufRead gen p = some (enc c f p) := by
  show Memory.read (table c.bufWords fun a => enc c f (posOf c a)) (bufIndex c gen p) = _
  rw [read_table _ (bufIndex_lt c hg hp), posOf_bufIndex c gen hp]

theorem holding_inv {c : Config} (h : c.wf = true) (g f : List Byte) : (holding c g f).Inv where
  config := h
  frameWf := wf_table _ _
  bufWf := wf_table _ _
  busyJob := rfl
  oneGen _ := rfl
  job j hj := by simp [holding] at hj
  unwritten _ hr := by simp [holding] at hr

theorem generations_pos {c : Config} (h : c.wf = true) : 0 < c.generations := by
  obtain ⟨-, -, h | h, -⟩ := (config_wf_iff c).1 h <;> omega

theorem holding_holds {c : Config} (h : c.wf = true) {f : List Byte} (hf : f.length = c.frameBytes) : (holding c f f).Holds f where
  whole := hf
  bytes _ hn := holding_frame c f f hn
  words _ hp := holding_word f f (generations_pos h) hp

/-- The same block just after an ENCODE of `f'` was accepted. -/
def encoding (c : Config) (f f' : List Byte) : State := (holding c f f).startJob f'

theorem encoding_inv {c : Config} (h : c.wf = true) (f : List Byte) {f' : List Byte} (hf : f'.length = c.frameBytes) :
    (encoding c f f').Inv where
  config := h
  frameWf := wf_table _ _
  bufWf := wf_table _ _
  busyJob := rfl
  oneGen _ := rfl
  unwritten _ hr := by simp [encoding, holding, State.startJob] at hr
  job j hj := by
    obtain rfl := Option.some.inj hj
    exact
      { frame := hf
        target := rfl
        frameRange := fun n hn => List.mem_range.1 hn
        frameNodup := List.nodup_range
        wordRange := fun p hp => (mem_allWordPos c p).1 hp
        wordNodup := nodup_allWordPos c
        order := fun _ p hp => (mem_allWordPos c p).2 hp
        frameCells := fun n hn hn' => absurd (List.mem_range.2 hn) hn'
        wordCells := fun p hp hp' => absurd ((mem_allWordPos c p).2 hp) hp' }

theorem encoding_holds {c : Config} (h : c.wf = true) {f f' : List Byte} (hf : f.length = c.frameBytes) :
    (encoding c f f').Holds f where
  whole := hf
  bytes _ hn :=
    (holding_frame c f f hn).trans (congrArg some (if_pos (List.mem_range.2 hn)).symm)
  words p hp :=
    (holding_word (gen := 0#1) f f (generations_pos h) hp).trans
      (congrArg some (if_neg fun h' => h'.2 ((mem_allWordPos c p).2 hp)).symm)

/-- The job of `f'` once its frame-copy writes are done, with the words `pending` still to be written. -/
def jobOf (c : Config) (f' : List Byte) (pending : List WordPos) : Job := ⟨f', targetGen c 0, [], pending⟩

/-- The block between the frame-copy writes and the word writes of a job of `f'`, after a frame `f`. -/
def between (c : Config) (f f' : List Byte) : State :=
  { holding c f' f with busy := true, job := some (jobOf c f' (allWordPos c)) }

theorem between_inv {c : Config} (h : c.wf = true) (f : List Byte) {f' : List Byte} (hf : f'.length = c.frameBytes) :
    (between c f f').Inv where
  config := h
  frameWf := wf_table _ _
  bufWf := wf_table _ _
  busyJob := rfl
  oneGen _ := rfl
  unwritten _ hr := by simp [between, holding] at hr
  job j hj := by
    obtain rfl := Option.some.inj hj
    exact
      { frame := hf
        target := rfl
        frameRange := fun n hn => by simp [jobOf] at hn
        frameNodup := List.nodup_nil
        wordRange := fun p hp => (mem_allWordPos c p).1 hp
        wordNodup := nodup_allWordPos c
        order := fun hne => absurd rfl hne
        frameCells := fun n hn _ => holding_frame c f' f hn
        wordCells := fun p hp hp' => absurd ((mem_allWordPos c p).2 hp) hp' }

/-- The block just before the first commit of its life, of a job of `f`, with one generation. -/
def finishing (c : Config) (f : List Byte) : State :=
  { holding c f f with ready := false, busy := true, job := some (jobOf c f []) }

theorem finishing_inv {c : Config} (h : c.wf = true) (h1 : c.generations = 1) {f : List Byte} (hf : f.length = c.frameBytes) :
    (finishing c f).Inv where
  config := h
  frameWf := wf_table _ _
  bufWf := wf_table _ _
  busyJob := rfl
  oneGen _ := rfl
  unwritten h2 := by
    have h2 : c.generations = 2 := h2
    omega
  job j hj := by
    obtain rfl := Option.some.inj hj
    exact
      { frame := hf
        target := rfl
        frameRange := fun n hn => by simp [jobOf] at hn
        frameNodup := List.nodup_nil
        wordRange := fun p hp => by simp [jobOf] at hp
        wordNodup := List.nodup_nil
        order := fun hne => absurd rfl hne
        frameCells := fun n hn _ => holding_frame c f f hn
        wordCells := fun p hp _ => holding_word f f (targetGen_lt h 0) hp }

/-- A ready block just before the commit of a job of `f` that has written everything, in whatever generation is its target. -/
def committing (c : Config) (f : List Byte) : State :=
  { holding c f f with busy := true, job := some (jobOf c f []) }

theorem committing_inv {c : Config} (h : c.wf = true) {f : List Byte} (hf : f.length = c.frameBytes) : (committing c f).Inv where
  config := h
  frameWf := wf_table _ _
  bufWf := wf_table _ _
  busyJob := rfl
  oneGen _ := rfl
  unwritten _ hr := by simp [committing, holding] at hr
  job j hj := by
    obtain rfl := Option.some.inj hj
    exact
      { frame := hf
        target := rfl
        frameRange := fun n hn => by simp [jobOf] at hn
        frameNodup := List.nodup_nil
        wordRange := fun p hp => by simp [jobOf] at hp
        wordNodup := List.nodup_nil
        order := fun hne => absurd rfl hne
        frameCells := fun n hn _ => holding_frame c f f hn
        wordCells := fun p hp _ => holding_word f f (targetGen_lt h 0) hp }

/-- With one generation the committed frame before it may be any: the job has rewritten every cell. -/
theorem committing_holds {c : Config} (h : c.wf = true) (h1 : c.generations = 1) {f g : List Byte} (hg : g.length = c.frameBytes) :
    (committing c f).Holds g where
  whole := hg
  bytes _ hn := holding_frame c f f hn
  words p hp :=
    (holding_word (gen := 0#1) f f (generations_pos h) hp).trans
      (congrArg some (if_pos ⟨targetGen_one h1 0, by simp [jobOf]⟩).symm)

/-- A scripted move is the next step, whatever the rest of the state. -/
theorem scripted_engine {s : State} (h : s.cfg.wf = true) (choice : Nat) :
    step { s with schedule := [.engine choice] } = .next (engineStep choice { s with schedule := [] }) := by
  rw [step_scripted (s := { s with schedule := [.engine choice] }) h rfl]; rfl

theorem scripted_reset {s : State} (h : s.cfg.wf = true) :
    step { s with schedule := [.reset] } = .next (State.applyReset { s with schedule := [] }) := by
  rw [step_scripted (s := { s with schedule := [.reset] }) h rfl]; rfl

/-- Frames of the two example sizes. -/
abbrev black1 : List Byte := frameFill Config.t1 0x00#8
abbrev white1 : List Byte := frameFill Config.t1 0xFF#8
abbrev black2 : List Byte := frameFill Config.t2g 0x00#8
abbrev white2 : List Byte := frameFill Config.t2g 0xFF#8

theorem frameFill_length (c : Config) (v : Byte) : (frameFill c v).length = c.frameBytes := List.length_replicate

theorem inv_scheduled {s : State} (h : s.Inv) (moves : List Move) : State.Inv { s with schedule := moves } :=
  ⟨h.config, h.frameWf, h.bufWf, h.busyJob, h.oneGen, fun j hj => ⟨(h.job j hj).frame, (h.job j hj).target, (h.job j hj).frameRange,
    (h.job j hj).frameNodup, (h.job j hj).wordRange, (h.job j hj).wordNodup, (h.job j hj).order, (h.job j hj).frameCells,
    (h.job j hj).wordCells⟩, h.unwritten⟩

theorem holds_scheduled {s : State} {f : List Byte} (h : s.Holds f) (moves : List Move) : State.Holds { s with schedule := moves } f :=
  ⟨h.whole, h.bytes, h.words⟩

/-! ### For every obligation with hypotheses: operands and states that meet them, clause by clause -/

/-- A `1` in a bit that rule R81 marks 0. -/
abbrev ReservedBit (w : Word) : Prop :=
  ((w.extractLsb' 28 4).toNat = 1 ∧ w.extractLsb' 24 4 ≠ 0) ∨
    ((w.extractLsb' 28 4).toNat = 3 ∧ (w.getLsbD 27 = true ∨ w.extractLsb' 0 24 ≠ 0)) ∨
    ((w.extractLsb' 28 4).toNat = 4 ∧ w.extractLsb' 0 28 ≠ 0) ∨ ((w.extractLsb' 28 4).toNat = 5 ∧ w.extractLsb' 24 4 ≠ 0)

abbrev opOf (w : Word) : Nat := (w.extractLsb' 28 4).toNat

/-- EveryWordIsOneCommandOrIllegal: each clause at the ends of its range of `OP`. -/
theorem witness_word_clauses :
    (opOf 0x0FFFFFFF#32 = 0 ∧ 6 ≤ opOf 0x60000000#32 ∧ 6 ≤ opOf 0xFFFFFFFF#32) ∧
    (ReservedBit 0x11000000#32 ∧ ReservedBit 0x38000000#32 ∧ ReservedBit 0x30000001#32 ∧ ReservedBit 0x40000001#32 ∧
      ReservedBit 0x58000000#32) ∧
    (1 ≤ opOf 0x10000000#32 ∧ opOf 0x10000000#32 ≤ 5 ∧ ¬ ReservedBit 0x10000000#32) ∧
    (1 ≤ opOf 0x50FFFFFF#32 ∧ opOf 0x50FFFFFF#32 ≤ 5 ∧ ¬ ReservedBit 0x50FFFFFF#32) := by
  refine ⟨⟨?_, ?_, ?_⟩, ⟨?_, ?_, ?_, ?_, ?_⟩, ⟨?_, ?_, ?_⟩, ?_, ?_, ?_⟩ <;> decide

/-- GeometryFitsTheCommandFields: the smallest and the largest configuration. -/
theorem witness_geometry : Config.t1.wf = true ∧ largest.wf = true := by decide

/-- DelayTableCheckIsTheRule: a table that meets the rule at both ratio bounds, and a block whose table fails it. -/
theorem witness_delay_table :
    delayTableOk ratio35 = true ∧
      delayTableOk (State.resetFor { Config.t1 with delayLut := zeroFirst }).cfg.delayLut = false := by decide

/-- DelayValuesIncreaseStrictly: tables at the lower and at the upper ratio bound, and two phases in order. -/
theorem witness_delay_increase :
    delayTableOk powersOf2 = true ∧ delayTableOk ratio35 = true ∧ (0 : Fin 8) < 1 ∧ (6 : Fin 8) < 7 := by decide

/-- OnlyIllFormedConfigurationsAreRefused: the bound 204 met, and 205 not. -/
theorem witness_config_clauses :
    (1 ≤ (State.resetFor largest).cfg.rowModules ∧ (State.resetFor largest).cfg.rowModules ≤ 204 ∧
      1 ≤ (State.resetFor largest).cfg.colModules ∧ (State.resetFor largest).cfg.colModules ≤ 204 ∧
      ((State.resetFor largest).cfg.generations = 1 ∨ (State.resetFor largest).cfg.generations = 2) ∧
      delayTableOk (State.resetFor largest).cfg.delayLut = true) ∧
    ¬ (State.resetFor { largest with rowModules := 205 }).cfg.rowModules ≤ 204 := by decide

/-- AccumulatedStagesStandInOrder: 24 stages, the first and last stage, the lowest unused bit, the ends of the positions. -/
theorem witness_stages :
    (List.replicate 24 true).length = 24 ∧ (0 < 24 ∧ 23 < 24) ∧ 24 ≤ 24 ∧ (0 < 20 ∧ 19 < 20) ∧
      ((0 = 0 ∨ 0 = 7 ∨ 0 = 15 ∨ 0 = 23) ∧ (23 = 0 ∨ 23 = 7 ∨ 23 = 15 ∨ 23 = 23)) := by decide

/-- PixelWordIsTheOrOfItsBits, EndOfRowOnTheLastPixelWordOnly: a word that is not the last group's and one that is. -/
theorem witness_pixel_word :
    0 < Config.t2.colModules ∧ 0 ≠ Config.t2.colModules - 1 ∧ 1 < Config.t2.colModules ∧ 1 = Config.t2.colModules - 1 := by decide

/-- RowControlWordValues: the first and the last row, under each basis. -/
theorem witness_ctrl :
    1 ≤ Config.t1.rowModules ∧ 0 < Config.t1.rowCount ∧ 19 < Config.t1.rowCount ∧ Config.t1.pulseRowBasis = .output ∧
      1 ≤ (logical Config.t1).rowModules ∧ 0 < (logical Config.t1).rowCount ∧ 19 < (logical Config.t1).rowCount ∧
      (logical Config.t1).pulseRowBasis = .logical := by decide

/-- EncodedBitsDecodeToThePixels: the first and last bit, the last byte, and two whole frames with the same encoding. -/
theorem witness_bits :
    (0 < 8 ∧ 0 < Config.t2.rowCount ∧ 0 < Config.t2.colModules ∧ 0 < 20) ∧
    (7 < 8 ∧ 39 < Config.t2.rowCount ∧ 1 < Config.t2.colModules ∧ 19 < 20) ∧ 1599 < Config.t2.frameBytes ∧
    (frameFill Config.t2 0).length = Config.t2.frameBytes ∧
      ∀ p : WordPos, p.inRange Config.t2 = true → enc Config.t2 (frameFill Config.t2 0) p = enc Config.t2 (frameFill Config.t2 0) p :=
  ⟨by decide, by decide, by decide, frameFill_length _ _, fun _ _ => rfl⟩

/-- OnlyDataBitsDependOnTheFrame: a placeholder, an unused bit and the marker are no data bits. -/
theorem witness_no_data_bit :
    1 < Config.t2.colModules ∧ (∀ j, j < 20 → 0 ≠ stagePos j) ∧ (∀ j, j < 20 → 23 ≠ stagePos j) ∧
      (∀ j, j < 20 → 31 ≠ stagePos j) := by decide

/-- AllZeroFrameEncoding: the all-zero frame, and the words of both clauses in a configuration of two groups. -/
theorem witness_all_zero :
    (frameFill Config.t2 0).length = Config.t2.frameBytes ∧
      (∀ n, n < Config.t2.frameBytes → (frameFill Config.t2 0).getD n 0#8 = 0#8) ∧
      7 < 8 ∧ 39 < Config.t2.rowCount ∧ 0 + 1 < Config.t2.colModules ∧ 1 ≤ Config.t2.colModules :=
  ⟨frameFill_length _ _, fun n hn => by simp [frameFill, List.getD, hn], by decide, by decide, by decide, by decide⟩

/-- The frame of rule R129: `F[0] = 0xFF`, zeros elsewhere. -/
def singlePixel (c : Config) : List Byte := 0xFF#8 :: List.replicate (c.frameBytes - 1) 0#8

/-- SinglePixelFrameEncoding: that frame; the pixel's own place, and another one. -/
theorem witness_single_pixel :
    (singlePixel Config.t2).length = Config.t2.frameBytes ∧ (singlePixel Config.t2).getD 0 0#8 = 0xFF#8 ∧
      (∀ n, 0 < n → n < Config.t2.frameBytes → (singlePixel Config.t2).getD n 0#8 = 0#8) ∧
      (7 < 8 ∧ 39 < Config.t2.rowCount ∧ 0 < Config.t2.colModules ∧ 0 < 20) ∧
      (0 < 8 ∧ 0 < Config.t2.rowCount ∧ 1 < Config.t2.colModules ∧ 19 < 20) := by
  refine ⟨by simp [singlePixel]; decide, rfl, fun n hn hn' => ?_, by decide, by decide⟩
  obtain ⟨m, rfl⟩ := Nat.exists_eq_succ_of_ne_zero (Nat.ne_of_gt hn)
  simp only [singlePixel, List.getD_cons_succ]
  by_cases hm : m < Config.t2.frameBytes - 1 <;> simp [List.getD, hm]

/-- EveryRowGroupHasItsWordsInOrder: the last row group, its first and last pixel word. -/
theorem witness_row_group : 7 < 8 ∧ 39 < Config.t2.rowCount ∧ 0 < Config.t2.colModules ∧ 1 < Config.t2.colModules := by decide

/-- A block with a whole frame of `LEN` bytes on port `H`. -/
def framed (c : Config) (f : List Byte) : State :=
  { State.resetFor c with hostQueue := [⟨encode (.encode (BitVec.ofNat 24 f.length)), f⟩] }

/-- EncodeStartsTheJob, with one generation and with two. -/
theorem witness_encode_starts :
    ((framed Config.t1 white1).active = .host ∧ (400#24).toNat = (framed Config.t1 white1).cfg.frameBytes ∧
      (framed Config.t1 white1).payload.length = (framed Config.t1 white1).cfg.frameBytes ∧ (framed Config.t1 white1).busy = false ∧
      (framed Config.t1 white1).cfg.generations = 1) ∧
    ((framed Config.t2g white2).active = .host ∧ (1600#24).toNat = (framed Config.t2g white2).cfg.frameBytes ∧
      (framed Config.t2g white2).payload.length = (framed Config.t2g white2).cfg.frameBytes ∧
      (framed Config.t2g white2).busy = false ∧ (framed Config.t2g white2).cfg.generations = 2) :=
  ⟨⟨rfl, by decide, frameFill_length _ _, rfl, rfl⟩, rfl, by decide, frameFill_length _ _, rfl, rfl⟩

/-- EncodeHoldsWhileBusy. -/
theorem witness_encode_holds :
    let s : State := { encoding Config.t1 black1 black1 with hostQueue := (framed Config.t1 white1).hostQueue }
    s.active = .host ∧ (400#24).toNat = s.cfg.frameBytes ∧ s.payload.length = s.cfg.frameBytes ∧ s.busy = true :=
  ⟨rfl, by decide, frameFill_length _ _, rfl⟩

/-- FrameSizeFaultExactlyOnWrongLength: the right length, one byte less, one byte more. -/
theorem witness_frame_size :
    let s (n : Nat) : State := framed Config.t1 (List.replicate n 0)
    ((s 400).active = .host ∧ (s 400).fault = none ∧ (s 400).payload.length = (400#24).toNat) ∧
    ((s 399).active = .host ∧ (s 399).fault = none ∧ (s 399).payload.length = (399#24).toNat ∧
      (399#24).toNat ≠ (s 399).cfg.frameBytes) ∧
    ((s 401).active = .host ∧ (s 401).fault = none ∧ (s 401).payload.length = (401#24).toNat ∧
      (401#24).toNat ≠ (s 401).cfg.frameBytes) := by
  simp only [framed, State.payload, State.queue, State.resetFor]
  decide +kernel

/-- EncodeOnRenderPortIsIllegal. -/
theorem witness_render_encode : State.active { State.reset with active := .render } = .render := rfl

/-- RdwordRespondsWithTheCell: the last word of the last row. -/
theorem witness_rdword :
    (0#1).toNat < (holding Config.t1 black1 white1).cfg.generations ∧ (19#12).toNat < (holding Config.t1 black1 white1).cfg.rowCount ∧
      (1#12).toNat < (holding Config.t1 black1 white1).cfg.wordsPerRow ∧ (holding Config.t1 black1 white1).ready = true ∧
      (holding Config.t1 black1 white1).bufRead 0 ⟨(7#3).toNat, (19#12).toNat, (1#12).toNat⟩ =
        some (enc Config.t1 white1 ⟨7, 19, 1⟩) :=
  ⟨by decide, by decide, by decide, rfl, holding_word _ _ (by decide) (by decide)⟩

/-- RdframeRespondsWithThePixel: the last pixel. -/
theorem witness_rdframe :
    (19#12).toNat < (holding Config.t1 white1 black1).cfg.rowCount ∧ (19#12).toNat < (holding Config.t1 white1 black1).cfg.colCount ∧
      (holding Config.t1 white1 black1).ready = true ∧
      (holding Config.t1 white1 black1).frameRead
        ((19#12).toNat * (holding Config.t1 white1 black1).cfg.colCount + (19#12).toNat) = some (white1.getD 399 0#8) :=
  ⟨by decide, by decide, rfl, holding_frame _ _ _ (by decide)⟩

/-- RdstatusRespondsWithTheFlags: both clauses. -/
theorem witness_generations :
    State.reset.cfg.generations = 1 ∧ (State.resetFor Config.t2g).cfg.generations = 2 := by decide

/-- RangeFaultExactlyOutOfRange: each field just out of its space and, last, all of them just in it. -/
theorem witness_range :
    State.reset.cfg.generations ≤ (1#1).toNat ∧ State.reset.cfg.rowCount ≤ (20#12).toNat ∧
      State.reset.cfg.wordsPerRow ≤ (2#12).toNat ∧ State.reset.cfg.colCount ≤ (20#12).toNat ∧
      ¬ (State.reset.cfg.generations ≤ (0#1).toNat ∨ State.reset.cfg.rowCount ≤ (19#12).toNat ∨
        State.reset.cfg.wordsPerRow ≤ (1#12).toNat) ∧
      ¬ (State.reset.cfg.rowCount ≤ (19#12).toNat ∨ State.reset.cfg.colCount ≤ (19#12).toNat) := by decide

/-- NotReadyFaultExactlyWithoutAValue: fields in range; READY 0, and READY 1 with an unwritten cell of the other generation. -/
theorem witness_not_ready :
    let s : State := { State.resetFor Config.t2g with ready := true }
    ((1#1).toNat < s.cfg.generations ∧ (39#12).toNat < s.cfg.rowCount ∧ (2#12).toNat < s.cfg.wordsPerRow ∧
      s.bufRead 1 ⟨(7#3).toNat, (39#12).toNat, (2#12).toNat⟩ = none) ∧
    ((0#12).toNat < State.reset.cfg.rowCount ∧ (19#12).toNat < State.reset.cfg.colCount ∧ State.reset.ready = false) := by decide

/-- ReadsHaveNoOtherEffect, CommandsLeaveTheStorageAlone: a read that responds, a read that faults, an ENCODE that starts a job. -/
theorem witness_exec :
    exec .rdstatus State.reset = .next (State.reset.respond 0#32) ∧ (∀ len, Instr.rdstatus ≠ .encode len) ∧
      exec (.rdframe 0 0) State.reset = .next (State.reset.raise .notReady 0x50000000#32) ∧
      (∀ len, Instr.rdframe 0 0 ≠ .encode len) ∧
      ∃ t, exec (.encode 400) (framed Config.t1 white1) = .next t :=
  ⟨rfl, fun _ => by simp, rfl, fun _ => by simp, exec_next _ _⟩

/-- IllegalWordsFault, on each port and for each reason. -/
theorem witness_illegal :
    let s : State :=
      { State.reset with
        hostQueue := [⟨0x60000000#32, []⟩], renderQueue := [⟨0x40000001#32, []⟩], schedule := [.port .host] }
    (s.cfg.wf = true ∧ s.fault = none ∧ s.schedule = .port .host :: [] ∧ s.queue .host = ⟨0x60000000#32, []⟩ :: [] ∧
      decode 0x60000000#32 = .error .reservedOp) ∧
    (State.schedule { s with schedule := [.port .render] } = .port .render :: [] ∧
      s.queue .render = ⟨0x40000001#32, []⟩ :: [] ∧ decode 0x40000001#32 = .error .reservedBits) := by decide

/-- A block after reset with one word on port `R`, that port's step scripted. -/
def reading (c : Config) (cmd : Word) : State :=
  { State.resetFor c with renderQueue := [⟨cmd, []⟩], schedule := [.port .render] }

/-- EveryFaultHasItsCause: a step that records a fault, once for each code, for an ENCODE on port `R`, and for a cell without a value
in a ready block. -/
theorem witness_fault_causes :
    (∃ t, step (reading Config.t1 0#32) = .next t ∧ t.fault = some ⟨.illegalCmd, .render, 0#32⟩) ∧
    (∃ t, step (reading Config.t1 0x50000014#32) = .next t ∧ t.fault = some ⟨.range, .render, 0x50000014#32⟩) ∧
    (∃ t, step (reading Config.t1 0x20000000#32) = .next t ∧ t.fault = some ⟨.notReady, .render, 0x20000000#32⟩) ∧
    (∃ t, step { framed Config.t1 [] with schedule := [.port .host] } = .next t ∧
      t.fault = some ⟨.frameSize, .host, 0x10000000#32⟩) ∧
    (∃ t, step (reading Config.t1 0x10000190#32) = .next t ∧ t.fault = some ⟨.illegalCmd, .render, 0x10000190#32⟩) ∧
    (∃ t, step { reading Config.t1 0x20000000#32 with ready := true } = .next t ∧
      t.fault = some ⟨.notReady, .render, 0x20000000#32⟩) ∧
    (∀ cmd, (reading Config.t1 cmd).fault = none) ∧ (framed Config.t1 []).fault = none :=
  ⟨⟨_, rfl, rfl⟩, ⟨_, rfl, rfl⟩, ⟨_, rfl, rfl⟩, ⟨_, rfl, rfl⟩, ⟨_, rfl, rfl⟩, ⟨_, rfl, rfl⟩, fun _ => rfl, rfl⟩

/-- A block halted by a fault, with moves scripted. -/
def halted (moves : List Move) : State :=
  { encoding Config.t1 black1 white1 with fault := some ⟨.range, .render, 0x20014000#32⟩, schedule := moves }

/-- HaltedBlockTakesNoStep, each clause; FirstFaultIsKeptUntilReset, without a reset and with one. -/
theorem witness_halted :
    (halted []).cfg.wf = true ∧ (halted []).fault = some ⟨.range, .render, 0x20014000#32⟩ ∧
      (halted [.port .host]).schedule = .port .host :: [] ∧ (halted [.engine 0]).schedule = .engine 0 :: [] ∧
      (halted []).schedule = [] ∧ (∃ t, step (halted [.engine 0]) = .next t) ∧ ∃ t, step (halted [.reset]) = .next t :=
  ⟨by decide, rfl, rfl, rfl, rfl, ⟨_, scripted_engine (s := halted []) (by decide) 0⟩, _, scripted_reset (s := halted []) (by decide)⟩

/-- ResetRestoresTheResetValues: a block in mid-job, with a held ENCODE and without one. -/
theorem witness_reset :
    let s : State := { encoding Config.t1 black1 white1 with schedule := [.reset] }
    s.cfg.wf = true ∧ s.schedule = .reset :: [] ∧ s.hostHeld = false ∧
      State.hostHeld { s with hostQueue := [⟨0x10000190#32, white1⟩] } = true := by
  refine ⟨by decide, rfl, rfl, ?_⟩
  have hd : decode 0x10000190#32 = .ok (.encode 400#24) := by decide
  have hb : (encoding Config.t1 black1 white1).busy = true := rfl
  have hc : (encoding Config.t1 black1 white1).cfg = Config.t1 := rfl
  have hn : (400#24).toNat = Config.t1.frameBytes := by decide
  simp [State.hostHeld, hd, hb, hc, frameSizeOk, frameFill_length, -BitVec.toNat_ofNat, hn]

/-- ReadySetByCommitClearedByReset: a commit that sets READY, and a reset that clears it. -/
theorem witness_ready :
    (∃ t, step { finishing Config.t1 white1 with schedule := [.engine 0] } = .next t ∧ t.ready = true) ∧
      (finishing Config.t1 white1).ready = false ∧
      (∃ t, step { holding Config.t1 white1 white1 with schedule := [.reset] } = .next t ∧ t.ready = false) ∧
      (holding Config.t1 white1 white1).ready = true :=
  ⟨⟨_, scripted_engine (s := finishing Config.t1 white1) (by decide) 0, rfl⟩, rfl,
    ⟨_, scripted_reset (s := holding Config.t1 white1 white1) (by decide), rfl⟩, rfl⟩

/-- StepRunsTheDecodedCommand: a command at the head of a port whose step is scripted, and a word to be stored. -/
theorem witness_step_command :
    (reading Config.t1 0x37000000#32).cfg.wf = true ∧ (reading Config.t1 0x37000000#32).fault = none ∧
      (reading Config.t1 0x37000000#32).schedule = .port .render :: [] ∧
      (reading Config.t1 0x37000000#32).queue .render = ⟨0x37000000#32, []⟩ :: [] ∧
      decode 0x37000000#32 = .ok (.rddelay 7) ∧ State.reset.cfg.wf = true ∧ State.reset.fault = none := by decide

/-- UnhaltedBlockAlwaysSteps: a block in mid-job, an idle one, and one whose next command faults. -/
theorem witness_unhalted :
    (encoding Config.t1 black1 white1).cfg.wf = true ∧ (encoding Config.t1 black1 white1).fault = none ∧
      State.reset.cfg.wf = true ∧ State.reset.fault = none ∧
      (reading Config.t1 0#32).cfg.wf = true ∧ (reading Config.t1 0#32).fault = none :=
  ⟨by decide, rfl, by decide, rfl, by decide, rfl⟩

/-- A block in mid-job whose engine is to step. -/
def engineNext (s : State) : State := { s with schedule := [.engine 0] }

/-- ElementsHaveOnlyTheirWriters, OneCellPerStep: engine steps that write a frame cell, a word, and commit; none is a reset. -/
theorem witness_engine_steps :
    (∃ t, step (engineNext (encoding Config.t1 black1 white1)) = .next t) ∧
      (∃ t, step (engineNext (between Config.t1 black1 white1)) = .next t) ∧
      (∃ t, step (engineNext (finishing Config.t1 white1)) = .next t) ∧
      ∀ s moves, (engineNext s).schedule ≠ .reset :: moves :=
  ⟨⟨_, scripted_engine (s := encoding Config.t1 black1 white1) (by decide) 0⟩,
    ⟨_, scripted_engine (s := between Config.t1 black1 white1) (by decide) 0⟩,
    ⟨_, scripted_engine (s := finishing Config.t1 white1) (by decide) 0⟩, fun _ _ => by simp [engineNext]⟩

/-- ElementsHaveOnlyTheirWriters, the port's clauses: a step that accepts an ENCODE, and one that records a fault. -/
theorem witness_port_steps :
    (∃ t, step { framed Config.t1 white1 with schedule := [.port .host] } = .next t) ∧
      (framed Config.t1 white1).busy = false ∧
      (∃ t, step (reading Config.t1 0#32) = .next t ∧ t.fault ≠ (reading Config.t1 0#32).fault) ∧
      ∀ moves, (reading Config.t1 0#32).schedule ≠ .reset :: moves := by
  obtain ⟨t, ht⟩ := portStep_next .host { framed Config.t1 white1 with schedule := [] }
  have hw : Config.t1.wf = true := by decide
  exact ⟨⟨t, (step_scripted (s := { framed Config.t1 white1 with schedule := [.port .host] }) (m := .port .host) hw rfl).trans ht⟩,
    rfl, ⟨_, rfl, by decide⟩, fun _ => by simp [reading]⟩

/-- SetFrameStartsItsJob. -/
theorem witness_set_frame :
    let s : State := { State.reset with hostQueue := [setFrame white1], schedule := [.port .host] }
    s.cfg.wf = true ∧ s.fault = none ∧ s.busy = false ∧ white1.length = s.cfg.frameBytes ∧ s.hostQueue = setFrame white1 :: [] ∧
      s.schedule = .port .host :: [] :=
  ⟨by decide, rfl, rfl, frameFill_length _ _, rfl, rfl⟩

/-- EngineWritesAnyPendingFrameCell: a job with its two ends pending. -/
theorem witness_frame_pending :
    let j : Job := ⟨white1, 0, [0, 399], allWordPos Config.t1⟩
    State.fault { State.reset with job := some j } = none ∧ State.job { State.reset with job := some j } = some j ∧
      j.framePending ≠ [] ∧ 0 ∈ j.framePending ∧ 399 ∈ j.framePending :=
  ⟨rfl, rfl, by simp, by simp, by simp⟩

/-- EngineWritesAnyPendingWord: a job with the first and the last word of its generation pending. -/
theorem witness_word_pending :
    let j : Job := ⟨white2, 1, [], [⟨0, 0, 0⟩, ⟨7, 39, 2⟩]⟩
    let s : State := { State.resetFor Config.t2g with job := some j }
    s.fault = none ∧ s.job = some j ∧ j.framePending = [] ∧ j.wordPending ≠ [] ∧ ⟨7, 39, 2⟩ ∈ j.wordPending :=
  ⟨rfl, rfl, rfl, by simp, by simp⟩

/-- CommitPublishesTheJob, with one generation and with two. -/
theorem witness_commit :
    (finishing Config.t1 white1).fault = none ∧ (finishing Config.t1 white1).job = some (jobOf Config.t1 white1 []) ∧
      (finishing Config.t2g white2).fault = none ∧ (finishing Config.t2g white2).job = some (jobOf Config.t2g white2 []) ∧
      (jobOf Config.t2g white2 []).tg = 1#1 ∧ (jobOf Config.t1 white1 []).tg = 0#1 ∧
      (∀ c f, (jobOf c f []).framePending = [] ∧ (jobOf c f []).wordPending = []) :=
  ⟨rfl, rfl, rfl, rfl, by decide, by decide, fun _ _ => ⟨rfl, rfl⟩⟩

/-- JobCommitsAfterItsSteps: a job just accepted, with no choice made and with the last one made. -/
theorem witness_job_commits :
    ∃ j, let s (choices : List Nat) : State := { encoding Config.t1 black1 white1 with schedule := choices.map .engine }
      (∀ choices, (s choices).Inv ∧ (s choices).fault = none ∧ (s choices).job = some j ∧
        (s choices).schedule = choices.map .engine) ∧
      j.framePending.length = Config.t1.frameBytes ∧ j.wordPending.length = 8 * Config.t1.rowCount * Config.t1.wordsPerRow ∧
      ([] : List Nat).length < Config.t1.frameBytes + 8 * Config.t1.rowCount * Config.t1.wordsPerRow + 1 ∧
      (List.replicate 721 0).length = Config.t1.frameBytes + 8 * Config.t1.rowCount * Config.t1.wordsPerRow + 1 :=
  ⟨⟨white1, targetGen Config.t1 0, List.range Config.t1.frameBytes, allWordPos Config.t1⟩,
    fun _ => ⟨inv_scheduled (encoding_inv (by decide) _ (frameFill_length _ _)) _, rfl, rfl, rfl⟩,
    by simp only [List.length_range], length_allWordPos _, by simp, by rw [List.length_replicate]; decide⟩

/-- EveryMixOfWordsIsReached: no word chosen, and the two ends of the generation chosen. -/
theorem witness_mix :
    (between Config.t1 black1 white1).Inv ∧ (between Config.t1 black1 white1).fault = none ∧
      (between Config.t1 black1 white1).job = some (jobOf Config.t1 white1 (allWordPos Config.t1)) ∧
      (jobOf Config.t1 white1 (allWordPos Config.t1)).framePending = [] ∧
      ([⟨0, 0, 0⟩, ⟨7, 19, 1⟩] : List WordPos).Nodup ∧
      ∀ p : WordPos, p ∈ ([⟨0, 0, 0⟩, ⟨7, 19, 1⟩] : List WordPos) → p ∈ (jobOf Config.t1 white1 (allWordPos Config.t1)).wordPending :=
  ⟨between_inv (by decide) _ (frameFill_length _ _), rfl, rfl, rfl, by decide, fun p hp => by
    rw [List.mem_cons, List.mem_singleton] at hp
    rcases hp with rfl | rfl <;> exact (mem_allWordPos _ _).2 (by decide)⟩

/-- CurrentGenerationIsStable: two generations, a job in flight, a step that is no reset; and a commit that moves CUR_GEN. -/
theorem witness_stable :
    (engineNext (encoding Config.t2g black2 white2)).Inv ∧ (engineNext (encoding Config.t2g black2 white2)).cfg.generations = 2 ∧
      (∃ t, step (engineNext (encoding Config.t2g black2 white2)) = .next t) ∧
      (engineNext (committing Config.t2g white2)).Inv ∧ (engineNext (committing Config.t2g white2)).cfg.generations = 2 ∧
      (∃ t, step (engineNext (committing Config.t2g white2)) = .next t ∧ t.curGen ≠ (committing Config.t2g white2).curGen) :=
  ⟨inv_scheduled (encoding_inv (by decide) _ (frameFill_length _ _)) _, rfl,
    ⟨_, scripted_engine (s := encoding Config.t2g black2 white2) (by decide) 0⟩,
    inv_scheduled (committing_inv (by decide) (frameFill_length _ _)) _, rfl,
    ⟨_, scripted_engine (s := committing Config.t2g white2) (by decide) 0, by decide⟩⟩

/-- The environment's side of a state has no part in its invariant. -/
theorem inv_offered {s : State} (h : s.Inv) (ts : List Transaction) (n : Nat) :
    State.Inv { s with renderQueue := ts, patience := n } :=
  ⟨h.config, h.frameWf, h.bufWf, h.busyJob, h.oneGen, fun j hj => ⟨(h.job j hj).frame, (h.job j hj).target, (h.job j hj).frameRange,
    (h.job j hj).frameNodup, (h.job j hj).wordRange, (h.job j hj).wordNodup, (h.job j hj).order, (h.job j hj).frameCells,
    (h.job j hj).wordCells⟩, h.unwritten⟩

/-- EngineIsNotStarved: a job in flight and nothing scripted, with a read offered on port `R`, so that the next step is a free choice
between port `R` and the engine, and the engine may still be passed over once. -/
theorem witness_starved :
    ∃ j, let s : State := { encoding Config.t1 black1 white1 with renderQueue := [offer .rdstatus], patience := 1 }
      s.Inv ∧ s.schedule = [] ∧ s.fault = none ∧ s.job = some j ∧ s.renderQueue = [offer .rdstatus] ∧
        s.enabled = [.port .render, .engine] ∧ s.patience ≠ 0 ∧
        s.chosenAgent = [Agent.port .render, .engine][Config.freeAgent s.tick % 2]? :=
  ⟨_, inv_offered (encoding_inv (by decide) _ (frameFill_length _ _)) _ _, rfl, rfl, rfl, rfl, rfl, Nat.one_ne_zero, rfl⟩

/-- InvariantHoldsAtReset: with one generation and with two. -/
theorem witness_reset_configs : Config.t1.wf = true ∧ Config.t2g.wf = true := by decide

/-- StepKeepsTheInvariant, StepKeepsCoherence, LastCommitWins: steps that write a frame cell, write a word, and commit. -/
theorem witness_invariant_steps :
    ((engineNext (encoding Config.t2g black2 white2)).Inv ∧ (engineNext (encoding Config.t2g black2 white2)).Coherent ∧
      (engineNext (encoding Config.t2g black2 white2)).ready = true ∧ (engineNext (encoding Config.t2g black2 white2)).Holds black2 ∧
      ∃ t, step (engineNext (encoding Config.t2g black2 white2)) = .next t) ∧
    ((engineNext (between Config.t1 black1 white1)).Inv ∧ ∃ t, step (engineNext (between Config.t1 black1 white1)) = .next t) ∧
    ((engineNext (finishing Config.t1 white1)).Inv ∧ (engineNext (finishing Config.t1 white1)).Coherent ∧
      (finishing Config.t1 white1).ready = false ∧
      ∃ t, step (engineNext (finishing Config.t1 white1)) = .next t ∧ t.ready = true) := by
  have hh := holds_scheduled (encoding_holds (c := Config.t2g) (f' := white2) (by decide) (frameFill_length Config.t2g 0x00#8))
    [.engine 0]
  exact ⟨⟨inv_scheduled (encoding_inv (by decide) _ (frameFill_length _ _)) _, fun _ => ⟨_, hh⟩, rfl, hh,
      _, scripted_engine (s := encoding Config.t2g black2 white2) (by decide) 0⟩,
    ⟨inv_scheduled (between_inv (by decide) _ (frameFill_length _ _)) _,
      _, scripted_engine (s := between Config.t1 black1 white1) (by decide) 0⟩,
    inv_scheduled (finishing_inv (by decide) rfl (frameFill_length _ _)) _, fun h => absurd h (by simp [engineNext, finishing]), rfl,
      _, scripted_engine (s := finishing Config.t1 white1) (by decide) 0, rfl⟩

/-- ReadsSeeOldOrNewWords, FrameReadsAfterReadyRespond, the job's alternative: one generation, a black frame committed, and a job of a
white one that has written every cell. -/
theorem witness_new_reads :
    (committing Config.t1 white1).Inv ∧ (committing Config.t1 white1).ready = true ∧ (committing Config.t1 white1).Holds black1 ∧
      (19#12).toNat < (committing Config.t1 white1).cfg.rowCount ∧ (1#12).toNat < (committing Config.t1 white1).cfg.wordsPerRow ∧
      (19#12).toNat < (committing Config.t1 white1).cfg.colCount ∧
      (committing Config.t1 white1).job = some (jobOf Config.t1 white1 []) :=
  ⟨committing_inv (by decide) (frameFill_length _ _), rfl, committing_holds (by decide) rfl (frameFill_length _ _), by decide, by decide,
    by decide, rfl⟩

/-- ReadsSeeOldOrNewWords, FrameReadsAfterReadyRespond: the last cells, in an idle block and in mid-job. -/
theorem witness_ready_reads :
    ((holding Config.t1 black1 black1).Inv ∧ (holding Config.t1 black1 black1).ready = true ∧
      (holding Config.t1 black1 black1).Holds black1 ∧ (holding Config.t1 black1 black1).job = none) ∧
    ((encoding Config.t2g black2 white2).Inv ∧ (encoding Config.t2g black2 white2).ready = true ∧
      (encoding Config.t2g black2 white2).Holds black2 ∧ (encoding Config.t2g black2 white2).cfg.generations = 2 ∧
      (39#12).toNat < (encoding Config.t2g black2 white2).cfg.rowCount ∧
      (2#12).toNat < (encoding Config.t2g black2 white2).cfg.wordsPerRow ∧
      (39#12).toNat < (encoding Config.t2g black2 white2).cfg.colCount) :=
  ⟨⟨holding_inv (by decide) _ _, rfl, holding_holds (by decide) (frameFill_length _ _), rfl⟩,
    encoding_inv (by decide) _ (frameFill_length _ _), rfl, encoding_holds (by decide) (frameFill_length _ _), rfl, by decide, by decide,
    by decide⟩

/-- IdleReadyStatusMeansOneWholeFrame: the status of an idle ready block. -/
theorem witness_idle_status :
    let s := holding Config.t1 black1 black1
    s.Inv ∧ s.Coherent ∧ exec .rdstatus s = .next (s.respond 1#32) ∧ Responds s (s.respond 1#32) 1#32 ∧
      (1#32).getLsbD 0 = true ∧ (1#32).getLsbD 1 = false :=
  ⟨holding_inv (by decide) _ _, fun _ => ⟨_, holding_holds (by decide) (frameFill_length _ _)⟩, rfl, State.respond_responds _ _,
    by decide, by decide⟩

/-- RenderPassReadsTheDelayOncePerRow: a ready and a not-ready status, the last row and word, and the entry of the pass's phase. -/
theorem witness_render_pass :
    Config.t1.wf = true ∧ 19 < Config.t1.rowCount ∧ 1 < Config.t1.wordsPerRow ∧ (1#32).getLsbD 0 = true ∧ (2#32).getLsbD 0 = false ∧ Instr.rddelay 7 ∈ renderPass Config.t1 1#32 (fun _ => 0) 7 := by decide +kernel

/-- EveryCommandOfARenderPassResponds: a ready block, and the first and the last command of a pass. -/
theorem witness_render_command :
    let s := holding Config.t1 black1 black1
    s.Inv ∧ s.Coherent ∧ s.ready = true ∧ Instr.rdword 0 7 0 0 ∈ renderPass s.cfg 1#32 (fun _ => s.curGen) 7 ∧
      Instr.rddelay 7 ∈ renderPass s.cfg 1#32 (fun _ => s.curGen) 7 :=
  ⟨holding_inv (by decide) _ _, fun _ => ⟨_, holding_holds (by decide) (frameFill_length _ _)⟩, rfl, by
    show _ ∈ renderPass Config.t1 1#32 (fun _ => 0) 7
    decide +kernel, by
    show _ ∈ renderPass Config.t1 1#32 (fun _ => 0) 7
    decide +kernel⟩

/-- R93: the commands of the pseudo-commands, and WAITIDLE ended by the first response with BUSY 0 (rule R31: bit 1). -/
theorem test_pseudo :
    (Pseudo.rdrow 0 2 1).expand Config.t2 [] = some [.rdword 0 2 1 0, .rdword 0 2 1 1, .rdword 0 2 1 2] ∧
      (Pseudo.rdctrl 0 2 1).expand Config.t2 [] = some [.rdword 0 2 1 2] ∧ (Pseudo.rdpix 0 2 1 2).expand Config.t2 [] = none ∧
      Pseudo.waitidle.next Config.t1 [] = some .rdstatus ∧ Pseudo.waitidle.next Config.t1 [2#32, 3#32] = some .rdstatus ∧
      Pseudo.waitidle.next Config.t1 [2#32, 3#32, 1#32] = none := by decide

/-- PseudoCommandsExpandInOrder: the first and last word of RDROW, after the last, and each clause of RDCTRL and RDPIX. -/
theorem witness_pseudo :
    Config.t2.wf = true ∧ ([] : List Word).length ≤ Config.t2.colModules ∧ [0#32, 0#32].length ≤ Config.t2.colModules ∧
      Config.t2.colModules < [0#32, 0#32, 0#32].length ∧ [0#32] ≠ [] ∧ (1#12).toNat < Config.t2.colModules ∧
      Config.t2.colModules ≤ (2#12).toNat ∧
      (Pseudo.rdpix 0 2 1 1).offerNext .render 0 (State.resetFor Config.t2) =
        some ((State.resetFor Config.t2).offerOn .render (.rdword 0 2 1 1)) := by decide +kernel

/-- WaitidlePollsUntilIdle: an idle block, and a busy one that has answered BUSY 1 before. -/
theorem witness_waitidle :
    (State.reset.cfg.wf = true ∧ State.reset.fault = none ∧ State.reset.queue .host = [] ∧ 0 ≤ State.reset.responses.length ∧
      State.reset.busy = false ∧ ∀ w, w ∈ State.reset.answersOn .host 0 → w.getLsbD 1 = true) ∧
    let s : State := { encoding Config.t1 black1 white1 with responses := [⟨.host, 1#32⟩, ⟨.host, 3#32⟩] }
    s.cfg.wf = true ∧ s.fault = none ∧ s.queue .host = [] ∧ 1 ≤ s.responses.length ∧ s.busy = true ∧
      s.answersOn .host 1 = [3#32] ∧ ∀ w, w ∈ s.answersOn .host 1 → w.getLsbD 1 = true := by
  have hw : Config.t1.wf = true := by decide
  refine ⟨⟨hw, rfl, rfl, Nat.zero_le _, rfl, fun w h => absurd (show w ∈ [] from h) List.not_mem_nil⟩, hw, rfl, rfl, ?_, rfl, rfl,
    fun w h => ?_⟩
  · exact Nat.le_succ 1
  · rw [List.mem_singleton.1 (show w ∈ [3#32] from h)]
    rfl

end Sys2Proof.Tests
end

section
/-! Proofs of the statements of 00_scope.md: the sizes of a well-formed configuration, and when a step is refused. -/

namespace Sys2Proof.Machine

/-- `ROW_COUNT` of a well-formed configuration: one module at least, 204 at most (rule R5). -/
theorem rowCount_bounds {c : Config} (h : c.wf = true) : 20 ≤ c.rowCount ∧ c.rowCount ≤ 4080 := by
  obtain ⟨⟨hlo, hhi⟩, -⟩ := (config_wf_iff c).1 h
  rw [Config.rowCount, moduleSize_eq]
  omega

/-- `COL_COUNT` of a well-formed configuration: one module at least, 204 at most (rule R5). -/
theorem colCount_bounds {c : Config} (h : c.wf = true) : 20 ≤ c.colCount ∧ c.colCount ≤ 4080 := by
  obtain ⟨-, ⟨hlo, hhi⟩, -⟩ := (config_wf_iff c).1 h
  rw [Config.colCount, moduleSize_eq]
  omega

/-- `WORDS_PER_ROW` of a well-formed configuration: one word more than column modules (rule R5). -/
theorem wordsPerRow_bounds {c : Config} (h : c.wf = true) : 2 ≤ c.wordsPerRow ∧ c.wordsPerRow ≤ 205 := by
  obtain ⟨-, ⟨hlo, hhi⟩, -⟩ := (config_wf_iff c).1 h
  rw [Config.wordsPerRow]
  omega

/-- `FRAME_BYTES` of a well-formed configuration lies between the smallest and the largest geometry's (rule R5). -/
theorem frameBytes_bounds {c : Config} (h : c.wf = true) : 20 * 20 ≤ c.frameBytes ∧ c.frameBytes ≤ 4080 * 4080 := by
  obtain ⟨hrlo, hrhi⟩ := rowCount_bounds h
  obtain ⟨hclo, hchi⟩ := colCount_bounds h
  exact ⟨Nat.mul_le_mul hrlo hclo, Nat.mul_le_mul hrhi hchi⟩

/-- Settles O5: 204 modules give 4080 rows or columns, and `4080 * 4080` is still below `2 ^ 24`. -/
theorem geometryFitsTheCommandFields : Obligations.GeometryFitsTheCommandFields := by
  intro c h
  obtain ⟨-, hrow⟩ := rowCount_bounds h
  obtain ⟨-, hcol⟩ := colCount_bounds h
  obtain ⟨-, hword⟩ := wordsPerRow_bounds h
  obtain ⟨hbytesLo, hbytesHi⟩ := frameBytes_bounds h
  refine ⟨?_, ?_, ?_, ?_, ?_⟩ <;> omega

/-- A scripted move always answers a next state. -/
theorem moveStep_next (m : Move) (s : State) : ∃ t, moveStep m s = .next t := by
  cases m with
  | port p => exact portStep_next p s
  | engine choice => exact ⟨_, rfl⟩
  | reset => exact ⟨_, rfl⟩

/-- A free step of a block without a fault always answers a next state. -/
theorem freeStep_next {s : State} (hf : s.fault = none) : ∃ t, freeStep s = .next t := by
  unfold freeStep
  rw [hf]
  cases s.chosenAgent with
  | none => exact ⟨_, rfl⟩
  | some a =>
    cases a with
    | port p => exact portStep_next p _
    | engine => exact ⟨_, rfl⟩

/-- A free step of a halted block answers its recorded fault (rule R186). -/
theorem freeStep_halted {s : State} {r : FaultRecord} (hf : s.fault = some r) : freeStep s = .fault (.halted r) := by
  simp [freeStep, hf]

/-- With nothing scripted the step of a well-formed block is the free step. -/
theorem step_unscripted {s : State} (hw : s.cfg.wf = true) (hs : s.schedule = []) : step s = freeStep s := by
  simp [step, hw, hs]

/-- The step of a well-formed block answers a next state, or the block is halted with nothing scripted and answers its fault. -/
theorem step_next_or_halted {s : State} (hw : s.cfg.wf = true) :
    (∃ t, step s = .next t) ∨ (∃ r, s.fault = some r ∧ s.schedule = [] ∧ step s = .fault (.halted r)) := by
  cases hs : s.schedule with
  | cons m moves =>
    rw [step_scripted hw hs]
    exact .inl (moveStep_next m _)
  | nil =>
    rw [step_unscripted hw hs]
    cases hf : s.fault with
    | none => exact .inl (freeStep_next hf)
    | some r => exact .inr ⟨r, rfl, rfl, freeStep_halted hf⟩

/-- A well-formed block is never refused. -/
theorem step_not_refused {s : State} (hw : s.cfg.wf = true) (r : Refusal) : step s ≠ .refused r := by
  rcases step_next_or_halted hw with ⟨t, h⟩ | ⟨f, -, -, h⟩ <;> simp [h]

/-- An ill-formed block is refused (rule R6). -/
theorem step_illFormed {s : State} (hw : s.cfg.wf ≠ true) : step s = .refused .illFormedConfig := by
  simp [step, hw]

/-- Settles O8: the conditions are `Config.wf`, which alone decides whether a step is refused. -/
theorem onlyIllFormedConfigurationsAreRefused : Obligations.OnlyIllFormedConfigurationsAreRefused := by
  intro s
  have hwf := config_wf_iff s.cfg
  simp only [and_assoc] at hwf
  exact ⟨fun h => step_not_refused (hwf.2 h), fun h => step_illFormed (mt hwf.1 h)⟩

end Sys2Proof.Machine

end

section
/-! Proofs of the statements of 10_state.md: the frame of a command, the writers of each element, the fault record, READY, and the
structural invariant. One step is first said once as an effect on the state. -/

namespace Sys2Proof

/-- Two adjacent bit fields of a word side by side are one field; the sum in the upper field's place lets `rw` name both by numerals. -/
theorem fields_append (w : Word) (lo lenHi lenLo : Nat) :
    w.extractLsb' (lo + lenLo) lenHi ++ w.extractLsb' lo lenLo = w.extractLsb' lo (lenHi + lenLo) :=
  BitVec.extractLsb'_append_extractLsb'_eq_extractLsb' rfl

/-- The decoder loses no bit: a command's word is the encoding of the command (rule R91). -/
theorem encode_of_decode {w : Word} {i : Instr} (h : decode w = .ok i) : encode i = w := by
  unfold decode at h
  split at h <;> rename_i hop
  · split at h <;> cases h
    rename_i hres
    rw [encode, ← hop, ← hres, fields_append w 24 4 4, fields_append w 0 8 24]
    exact BitVec.extractLsb'_eq_self
  · cases h
    rw [encode, ← hop, fields_append w 27 4 1, fields_append w 24 5 3, fields_append w 12 8 12, fields_append w 0 20 12]
    exact BitVec.extractLsb'_eq_self
  · split at h <;> cases h
    rename_i hres
    rw [encode, ← hop, ← hres.1, ← hres.2, fields_append w 27 4 1, fields_append w 24 5 3, fields_append w 0 8 24]
    exact BitVec.extractLsb'_eq_self
  · split at h <;> cases h
    rename_i hres
    rw [encode, ← hop, ← hres, fields_append w 0 4 28]
    exact BitVec.extractLsb'_eq_self
  · split at h <;> cases h
    rename_i hres
    rw [encode, ← hop, ← hres, fields_append w 24 4 4, fields_append w 12 8 12, fields_append w 0 20 12]
    exact BitVec.extractLsb'_eq_self
  · cases h

end Sys2Proof

namespace Sys2Proof.Machine

/-- What one step makes of a state: the scheduler's data moved and nothing else, or on top of that one named update of the block, with
whose step it was and what it needed. -/
inductive StepEffect (s : State) : State → Prop where
  /-- No agent did anything, or an offered ENCODE was held. -/
  | idle {u : State} (hu : Rescheduled s u) : StepEffect s u
  | response {u : State} (hu : Rescheduled s u) (w : Word) : StepEffect s (u.respond w)
  | fault {u : State} {tr : Transaction} {rest : List Transaction} (hu : Rescheduled s u) (clear : s.fault = none)
      (moves : s.Moves (.port u.active)) (head : s.queue u.active = tr :: rest) (code : FaultCode) :
      StepEffect s (u.raise code tr.cmd)
  | accept {u : State} {tr : Transaction} {rest : List Transaction} {len : BitVec 24} (hu : Rescheduled s u)
      (clear : s.fault = none) (moves : s.Moves (.port .host)) (active : u.active = .host)
      (head : s.hostQueue = tr :: rest) (command : decode tr.cmd = .ok (.encode len))
      (whole : frameSizeOk s.cfg len tr.payload = true) (free : s.busy = false) :
      StepEffect s (u.retire.startJob tr.payload)
  | frameWrite {u : State} {j : Job} {n : Nat} (hu : Rescheduled s u) (clear : s.fault = none) (moves : s.Moves .engine)
      (job : s.job = some j) (pending : n ∈ j.framePending) : StepEffect s (engineFrameWrite j n u)
  | wordWrite {u : State} {j : Job} {p : WordPos} (hu : Rescheduled s u) (clear : s.fault = none) (moves : s.Moves .engine)
      (job : s.job = some j) (framesDone : j.framePending = []) (pending : p ∈ j.wordPending) :
      StepEffect s (engineWordWrite j p u)
  | commit {u : State} {j : Job} (hu : Rescheduled s u) (clear : s.fault = none) (moves : s.Moves .engine)
      (job : s.job = some j) (framesDone : j.framePending = []) (wordsDone : j.wordPending = []) :
      StepEffect s (u.commit j.tg)
  | reset {u : State} {moves : List Move} (hu : Rescheduled s u) (script : s.schedule = .reset :: moves) :
      StepEffect s u.applyReset

/-- The frame-size check: `LEN` and the bytes carried are both `FRAME_BYTES` (rules R69, R130). -/
theorem frameSizeOk_iff {c : Config} {len : BitVec 24} {payload : List Byte} :
    frameSizeOk c len payload = true ↔ len.toNat = c.frameBytes ∧ payload.length = c.frameBytes := by
  simp [frameSizeOk]

/-- The block is not halted exactly when no fault is recorded (rule R186). -/
theorem State.halted_eq_false {s : State} : s.halted = false ↔ s.fault = none := by
  simp [State.halted]

/-- The effect of running the word at the head of the port that moves. -/
theorem StepEffect.of_runCommand {s u t : State} {tr : Transaction} {rest : List Transaction} (hu : Rescheduled s u)
    (clear : s.fault = none) (moves : s.Moves (.port u.active)) (head : s.queue u.active = tr :: rest)
    (h : runCommand tr.cmd u = .next t) : StepEffect s t := by
  rcases runCommand_cases h with ⟨-, -, rfl⟩ | ⟨i, hdec, hexec⟩
  · exact .fault hu clear moves head _
  · rcases exec_cases hexec with ⟨w, rfl⟩ | ⟨code, rfl⟩ | ⟨-, -, -, -, -, rfl⟩ | ⟨len, rfl, hact, hsize, hbusy, rfl⟩
    · exact .response hu w
    · rw [encode_of_decode hdec]
      exact .fault hu clear moves head code
    · exact .idle hu
    · have hpay : u.payload = tr.payload := by simp [State.payload, hu.queue, head]
      rw [hpay, hu.cfg] at hsize
      rw [hact] at moves head
      rw [hpay]
      exact .accept hu clear moves hact head hdec hsize (hu.busy ▸ hbusy)

/-- The effect of a step of the engine. -/
theorem StepEffect.of_engineStep {s u : State} (hu : Rescheduled s u) (moves : s.Moves .engine) (choice : Nat) :
    StepEffect s (engineStep choice u) := by
  rcases engineStep_cases choice u with ⟨-, h⟩ | ⟨-, -, h⟩ | ⟨hh, j, hj, h⟩
  · rw [h]; exact .idle hu
  · rw [h]; exact .idle hu
  · rw [State.halted_eq_false, hu.fault] at hh
    rw [hu.job] at hj
    rcases h with ⟨n, hn, h⟩ | ⟨hf, p, hp, h⟩ | ⟨hf, hw, h⟩ <;> rw [h]
    · exact .frameWrite hu hh moves hj (pick_mem hn)
    · exact .wordWrite hu hh moves hj hf (pick_mem hp)
    · exact .commit hu hh moves hj hf hw

/-- Every step has one of the effects. -/
theorem step_effect {s t : State} (h : step s = .next t) : StepEffect s t := by
  obtain ⟨-, u, hu, rfl | ⟨hh, p, tr, rest, hm, rfl, hq, hr⟩ | ⟨hm, choice, rfl⟩ | ⟨rfl, moves, hs⟩⟩ := step_agents h
  · exact .idle hu
  · exact .of_runCommand hu (State.halted_eq_false.1 hh) hm (hu.queue _ ▸ hq) hr
  · exact .of_engineStep hu hm choice
  · exact .reset hu hs

/-! ### The structural invariant -/

/-- The invariant speaks of these seven fields only. -/
theorem State.Inv.of_fields {s t : State} (h : s.Inv) (hc : t.cfg = s.cfg) (hf : t.frameCopy = s.frameCopy)
    (hb : t.buf = s.buf) (hr : t.ready = s.ready) (hbusy : t.busy = s.busy) (hg : t.curGen = s.curGen)
    (hj : t.job = s.job) : t.Inv := by
  cases s
  cases t
  dsimp only at hc hf hb hr hbusy hg hj
  subst hc hf hb hr hbusy hg hj
  exact { h with job := fun j hj => { h.job j hj with } }

theorem Rescheduled.inv {s u : State} (hu : Rescheduled s u) (h : s.Inv) : u.Inv :=
  h.of_fields hu.cfg hu.frameCopy hu.buf hu.ready hu.busy hu.curGen hu.job

/-- A new job has written nothing, so a whole frame is all it takes (rule R130). -/
theorem JobInv.of_new (s : State) {frame : List Byte} (hl : frame.length = s.cfg.frameBytes) :
    JobInv s ⟨frame, targetGen s.cfg s.curGen, List.range s.cfg.frameBytes, allWordPos s.cfg⟩ where
  frame := hl
  target := rfl
  frameRange _ hn := List.mem_range.1 hn
  frameNodup := List.nodup_range
  wordRange p hp := (mem_allWordPos s.cfg p).1 hp
  wordNodup := nodup_allWordPos s.cfg
  order _ p hp := (mem_allWordPos s.cfg p).2 hp
  frameCells _ hn hnot := absurd (List.mem_range.2 hn) hnot
  wordCells p hp hnot := absurd ((mem_allWordPos s.cfg p).2 hp) hnot

/-- Accepting a whole frame keeps the invariant (rule R130). -/
theorem State.Inv.startJob {s : State} (h : s.Inv) {frame : List Byte} (hl : frame.length = s.cfg.frameBytes) :
    (s.startJob frame).Inv where
  config := h.config
  frameWf := h.frameWf
  bufWf := h.bufWf
  busyJob := rfl
  oneGen := h.oneGen
  job j hj := by
    obtain rfl := Option.some.inj hj
    exact .of_new (s.startJob frame) hl
  unwritten := h.unwritten

/-- The engine's frame-copy write of a pending cell keeps the job's part of the invariant (rule R131). -/
theorem JobInv.frameWrite {s : State} {j : Job} (h : JobInv s j) {n : Nat} (hn : n ∈ j.framePending) :
    JobInv (engineFrameWrite j n s) { j with framePending := without j.framePending n } where
  frame := h.frame
  target := h.target
  frameRange m hm := h.frameRange m (mem_without.1 hm).1
  frameNodup := nodup_without h.frameNodup n
  wordRange := h.wordRange
  wordNodup := h.wordNodup
  order _ := h.order (List.ne_nil_of_mem hn)
  frameCells m hm hnot := by
    simp only [State.frameRead, engineFrameWrite_frameCopy, Memory.read_write]
    by_cases hmn : m = n
    · simp [hmn]
    · rw [if_neg hmn]
      exact h.frameCells m hm fun hmem => hnot (mem_without.2 ⟨hmem, hmn⟩)
  wordCells := h.wordCells

theorem State.Inv.frameWrite {s : State} (h : s.Inv) {j : Job} (hj : s.job = some j) {n : Nat} (hn : n ∈ j.framePending) :
    (engineFrameWrite j n s).Inv where
  config := h.config
  frameWf := Memory.wf_write _ _ ((h.job j hj).frameRange n hn) h.frameWf
  bufWf := h.bufWf
  busyJob := by simp [h.busyJob, hj]
  oneGen := h.oneGen
  job j' hj' := by
    obtain rfl := Option.some.inj hj'
    exact (h.job j hj).frameWrite hn
  unwritten := h.unwritten

/-- A read of a position in range after the engine's write of one. -/
theorem bufRead_engineWordWrite (s : State) (j : Job) {p q : WordPos} (g : BitVec 1) (hp : p.inRange s.cfg = true)
    (hq : q.inRange s.cfg = true) :
    (engineWordWrite j p s).bufRead g q =
      if g = j.tg ∧ q = p then some (enc s.cfg j.frame p) else s.bufRead g q :=
  s.bufRead_bufWrite _ hp hq

/-- The engine's write of a pending word, no frame cell being left, keeps the job's part of the invariant (rule R132). -/
theorem JobInv.wordWrite {s : State} {j : Job} (h : JobInv s j) (hf : j.framePending = []) {p : WordPos}
    (hp : p ∈ j.wordPending) : JobInv (engineWordWrite j p s) { j with wordPending := without j.wordPending p } where
  frame := h.frame
  target := h.target
  frameRange := h.frameRange
  frameNodup := h.frameNodup
  wordRange q hq := h.wordRange q (mem_without.1 hq).1
  wordNodup := nodup_without h.wordNodup p
  order hne := absurd hf hne
  frameCells := h.frameCells
  wordCells q hq hnot := by
    rw [bufRead_engineWordWrite s j j.tg (h.wordRange p hp) hq]
    by_cases hqp : q = p
    · simp [hqp]
    · rw [if_neg fun hc => hqp hc.2]
      exact h.wordCells q hq fun hmem => hnot (mem_without.2 ⟨hmem, hqp⟩)

/-- The engine's word write keeps the invariant: its target is inside the buffer and, with two generations, is not the current one
(rules R57, R136). -/
theorem State.Inv.wordWrite {s : State} (h : s.Inv) {j : Job} (hj : s.job = some j) (hf : j.framePending = [])
    {p : WordPos} (hp : p ∈ j.wordPending) : (engineWordWrite j p s).Inv where
  config := h.config
  frameWf := h.frameWf
  bufWf := by
    have hlt := targetGen_lt h.config s.curGen
    rw [← (h.job j hj).target] at hlt
    exact Memory.wf_write _ _ (bufIndex_lt s.cfg hlt ((h.job j hj).wordRange p hp)) h.bufWf
  busyJob := by simp [h.busyJob, hj]
  oneGen := h.oneGen
  job j' hj' := by
    obtain rfl := Option.some.inj hj'
    exact (h.job j hj).wordWrite hf hp
  unwritten hG hr q hq := by
    have hne := targetGen_ne hG s.curGen
    rw [engineWordWrite_cfg, ← (h.job j hj).target] at hne
    rw [engineWordWrite_curGen, bufRead_engineWordWrite s j s.curGen ((h.job j hj).wordRange p hp) hq,
      if_neg fun hc => hne hc.1.symm]
    exact h.unwritten hG hr q hq

/-- The commit leaves no job and sets READY, so nothing is left to say of a job or of an unwritten generation (rule R133). -/
theorem State.Inv.commit {s : State} (h : s.Inv) (tg : BitVec 1) : (s.commit tg).Inv where
  config := h.config
  frameWf := h.frameWf
  bufWf := h.bufWf
  busyJob := rfl
  oneGen hG := by
    have hG' : s.cfg.generations = 1 := hG
    simpa [hG'] using h.oneGen hG'
  job _ hj := nomatch hj
  unwritten _ hr := nomatch hr

/-- After a reset both storages are empty (rule R210). -/
theorem State.inv_applyReset {s : State} (hc : s.cfg.wf = true) : s.applyReset.Inv where
  config := hc
  frameWf := rfl
  bufWf := rfl
  busyJob := rfl
  oneGen _ := rfl
  job _ hj := nomatch hj
  unwritten _ _ _ _ := rfl

/-- Every effect of a step keeps the invariant. -/
theorem StepEffect.inv {s t : State} (he : StepEffect s t) (h : s.Inv) : t.Inv := by
  cases he with
  | idle hu => exact hu.inv h
  | response hu w => exact (hu.inv h).of_fields rfl rfl rfl rfl rfl rfl rfl
  | fault hu _ _ _ code => exact (hu.inv h).of_fields rfl rfl rfl rfl rfl rfl rfl
  | @accept u tr _ len hu _ _ _ _ _ whole _ =>
    have hl : tr.payload.length = u.retire.cfg.frameBytes := by
      rw [State.retire_cfg, hu.cfg]
      exact (frameSizeOk_iff.1 whole).2
    exact ((hu.inv h).of_fields (t := u.retire) rfl rfl rfl rfl rfl rfl rfl).startJob hl
  | frameWrite hu _ _ job pending => exact (hu.inv h).frameWrite (hu.job.trans job) pending
  | wordWrite hu _ _ job framesDone pending => exact (hu.inv h).wordWrite (hu.job.trans job) framesDone pending
  | commit hu => exact (hu.inv h).commit _
  | reset hu => exact State.inv_applyReset (hu.inv h).config

/-- Settles O50: a step has one of the named effects, and each keeps the invariant. -/
theorem stepKeepsTheInvariant : Obligations.StepKeepsTheInvariant :=
  fun _ _ h hstep => (step_effect hstep).inv h

/-! ### The fault record and READY -/

/-- Settles O34: a halted block takes no command and no engine step, so a reset alone writes the record. -/
theorem firstFaultIsKeptUntilReset : Obligations.FirstFaultIsKeptUntilReset := by
  intro s t r hstep hr
  cases step_effect hstep with
  | idle hu => exact .inl (hu.fault.trans hr)
  | response hu w => exact .inl (hu.fault.trans hr)
  | reset hu script => exact .inr ⟨rfl, _, script⟩
  | fault _ clear | accept _ clear | frameWrite _ clear | wordWrite _ clear | commit _ clear => simp [hr] at clear

/-- Settles O36: the commit alone writes READY 1 and a reset alone READY 0. -/
theorem readySetByCommitClearedByReset : Obligations.ReadySetByCommitClearedByReset := by
  intro s t hstep
  cases step_effect hstep with
  | commit hu _ _ job framesDone wordsDone => exact ⟨fun _ _ => ⟨_, job, framesDone, wordsDone, rfl⟩, fun _ h => by simp at h⟩
  | reset hu script => exact ⟨fun _ h => by simp at h, fun _ _ => ⟨_, script⟩⟩
  | idle hu | response hu | fault hu | accept hu | frameWrite hu | wordWrite hu => simp +contextual [hu.ready]

/-! ### The frame of a command -/

/-- An ENCODE answers no word, whatever it does (rule R130). -/
theorem exec_encode_responses {len : BitVec 24} {s t : State} (h : exec (.encode len) s = .next t) :
    t.responses = s.responses := by
  simp only [exec, execEncode] at h
  split at h
  · cases h; rfl
  · split at h
    · split at h <;> cases h <;> rfl
    · cases h; rfl

section
variable {i : Instr} {s t : State} (h : exec i s = .next t)
include h

theorem exec_keeps_storage :
    t.cfg = s.cfg ∧ (∀ n, t.frameRead n = s.frameRead n) ∧ (∀ a, Memory.read t.buf a = Memory.read s.buf a) ∧
      t.ready = s.ready ∧ t.curGen = s.curGen := by
  rcases exec_cases h with ⟨w, rfl⟩ | ⟨code, rfl⟩ | ⟨len, -, -, -, -, rfl⟩ | ⟨len, -, -, -, -, rfl⟩ <;>
    exact ⟨rfl, fun _ => rfl, fun _ => rfl, rfl, rfl⟩

theorem exec_keeps_scheduler :
    t.active = s.active ∧ t.schedule = s.schedule ∧ t.tick = s.tick ∧ t.patience = s.patience := by
  rcases exec_cases h with ⟨w, rfl⟩ | ⟨code, rfl⟩ | ⟨len, -, -, -, -, rfl⟩ | ⟨len, -, -, -, -, rfl⟩ <;>
    exact ⟨rfl, rfl, rfl, rfl⟩

/-- BUSY and the job change only where an ENCODE is accepted, which neither faults nor responds (rule R130). -/
theorem exec_busy_job :
    t.busy = s.busy ∧ t.job = s.job ∨
      s.busy = false ∧ (∃ len, i = .encode len) ∧ s.active = .host ∧ t.fault = s.fault ∧ t.responses = s.responses := by
  rcases exec_cases h with ⟨w, rfl⟩ | ⟨code, rfl⟩ | ⟨len, -, -, -, -, rfl⟩ | ⟨len, hi, hact, -, hbusy, rfl⟩
  · exact .inl ⟨rfl, rfl⟩
  · exact .inl ⟨rfl, rfl⟩
  · exact .inl ⟨rfl, rfl⟩
  · exact .inr ⟨hbusy, ⟨len, hi⟩, hact, rfl, rfl⟩

theorem exec_fault : t.fault = s.fault ∨ ∃ code, t.fault = some ⟨code, s.active, encode i⟩ := by
  rcases exec_cases h with ⟨w, rfl⟩ | ⟨code, rfl⟩ | ⟨len, -, -, -, -, rfl⟩ | ⟨len, -, -, -, -, rfl⟩
  · exact .inl rfl
  · exact .inr ⟨code, rfl⟩
  · exact .inl rfl
  · exact .inl rfl

/-- A command takes from the port it came on, or from none. -/
theorem exec_queue_other {p : Port} (hp : p ≠ s.active) : t.queue p = s.queue p := by
  rcases exec_cases h with ⟨w, rfl⟩ | ⟨code, rfl⟩ | ⟨len, -, -, -, -, rfl⟩ | ⟨len, -, -, -, -, rfl⟩
  · exact s.queue_retire_other hp
  · exact s.queue_retire_other hp
  · rfl
  · exact s.queue_retire_other hp

end

/-- Settles O30: the storage and the scheduler's data are kept by every command, and each clause about what may change is the lemma
above it. -/
theorem commandsLeaveTheStorageAlone : Obligations.CommandsLeaveTheStorageAlone := by
  intro i s t h
  obtain ⟨hcfg, hframe, hbuf, hready, hgen⟩ := exec_keeps_storage h
  obtain ⟨hactive, hschedule, htick, hpatience⟩ := exec_keeps_scheduler h
  refine ⟨hcfg, hframe, hbuf, hready, hgen, hactive, hschedule, htick, hpatience, exec_busy_job h, exec_fault h,
    fun p => exec_queue_other h, ?_⟩
  rintro len rfl
  exact exec_encode_responses h

/-! ### The writers of each element -/

theorem StepEffect.cfg {s t : State} (he : StepEffect s t) : t.cfg = s.cfg := by
  cases he with
  | idle hu | response hu | fault hu | accept hu | frameWrite hu | wordWrite hu | commit hu | reset hu => exact hu.cfg

/-- Responses are appended and never taken back (rule R223). -/
theorem StepEffect.responses_grow {s t : State} (he : StepEffect s t) : s.responses <+: t.responses := by
  cases he with
  | response hu w => exact ⟨_, by rw [State.respond_responses, hu.responses]⟩
  | idle hu | fault hu | accept hu | frameWrite hu | wordWrite hu | commit hu | reset hu =>
    exact ⟨[], by simp [hu.responses]⟩

theorem writesFrameCell_engineFrameWrite {s : State} (u : State) {j : Job} {n : Nat} (clear : s.fault = none)
    (moves : s.Moves .engine) (job : s.job = some j) (pending : n ∈ j.framePending) :
    WritesFrameCell s (engineFrameWrite j n u) n :=
  ⟨moves, clear, j, job, pending, Memory.read_write_same _ _ _, rfl⟩

section
variable {s u : State} {j : Job} (hu : Rescheduled s u) (clear : s.fault = none)
include hu clear

theorem Rescheduled.writesWord {p : WordPos} (moves : s.Moves .engine) (job : s.job = some j)
    (framesDone : j.framePending = []) (pending : p ∈ j.wordPending) :
    WritesWord s (engineWordWrite j p u) p (bufIndex s.cfg j.tg p) :=
  ⟨moves, clear, j, job, framesDone, pending, rfl, by simp [hu.cfg], rfl⟩

theorem Rescheduled.commits (moves : s.Moves .engine) (job : s.job = some j) (framesDone : j.framePending = [])
    (wordsDone : j.wordPending = []) : Commits s (u.commit j.tg) :=
  ⟨moves, clear, j, job, framesDone, wordsDone, rfl, rfl, rfl, by simp [hu.cfg, hu.curGen]⟩

theorem Rescheduled.accepts {tr : Transaction} {rest : List Transaction} {len : BitVec 24} (moves : s.Moves (.port .host))
    (active : u.active = .host) (head : s.hostQueue = tr :: rest) (command : decode tr.cmd = .ok (.encode len))
    (whole : frameSizeOk s.cfg len tr.payload = true) (free : s.busy = false) :
    Accepts s (u.retire.startJob tr.payload) :=
  ⟨moves, clear, free, rfl, tr, rest, len, _, head, command, (frameSizeOk_iff.1 whole).1,
    by simp [active, hu.hostQueue, head], rfl, rfl⟩

end

section
variable {s t : State} (he : StepEffect s t) (unreset : ∀ moves, s.schedule ≠ .reset :: moves)
include he unreset

theorem StepEffect.frameCell_writer {n : Nat} (h : t.frameRead n ≠ s.frameRead n) : WritesFrameCell s t n := by
  cases he with
  | @frameWrite u j m hu clear moves job pending =>
    obtain rfl : n = m := by
      by_contra hne
      exact h (by simp [State.frameRead, hu.frameCopy, Memory.read_write_other _ _ hne])
    exact writesFrameCell_engineFrameWrite _ clear moves job pending
  | reset _ script => exact absurd script (unreset _)
  | idle hu | response hu | fault hu | accept hu | wordWrite hu | commit hu =>
    simp [State.frameRead, hu.frameCopy] at h

theorem StepEffect.bufCell_writer {a : Nat} (h : Memory.read t.buf a ≠ Memory.read s.buf a) : ∃ p, WritesWord s t p a := by
  cases he with
  | @wordWrite u j p hu clear moves job framesDone pending =>
    obtain rfl : a = bufIndex s.cfg j.tg p := by
      by_contra hne
      exact h (by simp [hu.cfg, hu.buf, Memory.read_write_other _ _ hne])
    exact ⟨p, hu.writesWord clear moves job framesDone pending⟩
  | reset _ script => exact absurd script (unreset _)
  | idle hu | response hu | fault hu | accept hu | frameWrite hu | commit hu => simp [hu.buf] at h

theorem StepEffect.curGen_writer (h : t.curGen ≠ s.curGen) : s.cfg.generations = 2 ∧ Commits s t := by
  cases he with
  | commit hu clear moves job framesDone wordsDone =>
    refine ⟨?_, hu.commits clear moves job framesDone wordsDone⟩
    by_contra hG
    exact h (by simp [hu.cfg, hu.curGen, hG])
  | reset _ script => exact absurd script (unreset _)
  | idle hu | response hu | fault hu | accept hu | frameWrite hu | wordWrite hu => simp [hu.curGen] at h

theorem StepEffect.ready_writer (h : t.ready ≠ s.ready) : s.ready = false ∧ Commits s t := by
  cases he with
  | commit hu clear moves job framesDone wordsDone =>
    exact ⟨by simpa using h.symm, hu.commits clear moves job framesDone wordsDone⟩
  | reset _ script => exact absurd script (unreset _)
  | idle hu | response hu | fault hu | accept hu | frameWrite hu | wordWrite hu => simp [hu.ready] at h

theorem StepEffect.busy_writer (h : t.busy ≠ s.busy) : Commits s t ∨ Accepts s t := by
  cases he with
  | commit hu clear moves job framesDone wordsDone => exact .inl (hu.commits clear moves job framesDone wordsDone)
  | accept hu clear moves active head command whole free =>
    exact .inr (hu.accepts clear moves active head command whole free)
  | reset _ script => exact absurd script (unreset _)
  | idle hu | response hu | fault hu | frameWrite hu | wordWrite hu => simp [hu.busy] at h

theorem StepEffect.job_writer (h : t.job ≠ s.job) :
    (∃ n, WritesFrameCell s t n) ∨ (∃ p a, WritesWord s t p a) ∨ Commits s t ∨ Accepts s t := by
  cases he with
  | frameWrite hu clear moves job pending => exact .inl ⟨_, writesFrameCell_engineFrameWrite _ clear moves job pending⟩
  | wordWrite hu clear moves job framesDone pending =>
    exact .inr (.inl ⟨_, _, hu.writesWord clear moves job framesDone pending⟩)
  | commit hu clear moves job framesDone wordsDone =>
    exact .inr (.inr (.inl (hu.commits clear moves job framesDone wordsDone)))
  | accept hu clear moves active head command whole free =>
    exact .inr (.inr (.inr (hu.accepts clear moves active head command whole free)))
  | reset _ script => exact absurd script (unreset _)
  | idle hu | response hu | fault hu => simp [hu.job] at h

theorem StepEffect.fault_writer (h : t.fault ≠ s.fault) : ∃ r, Records s t r := by
  cases he with
  | fault hu clear moves head code => exact ⟨_, moves, clear, rfl, _, _, head, rfl⟩
  | reset _ script => exact absurd script (unreset _)
  | idle hu | response hu | accept hu | frameWrite hu | wordWrite hu | commit hu => simp [hu.fault] at h

end

/-- Settles O39: each element's writers are read off the effects of a step. -/
theorem elementsHaveOnlyTheirWriters : Obligations.ElementsHaveOnlyTheirWriters := by
  intro s t hstep unreset
  have he := step_effect hstep
  exact ⟨he.cfg, he.responses_grow, fun _ => he.frameCell_writer unreset, fun _ => he.bufCell_writer unreset,
    he.curGen_writer unreset, he.ready_writer unreset, he.busy_writer unreset, he.job_writer unreset,
    he.fault_writer unreset⟩

end Sys2Proof.Machine
end

section
/-! Proofs of the statements of 20_memory.md: the ports, the one cell a step may write, the frame the storage holds, the mixes of old and
new words, and the render consumer's pass. -/

namespace Sys2Proof

/-- The decoder reads the three fields of an ENCODE word back as the encoder put them side by side (rules R81, R82). -/
theorem decode_encode_encode (len : BitVec 24) : decode (encode (.encode len)) = .ok (.encode len) := by
  have hop : (encode (.encode len)).extractLsb' 28 4 = 1#4 := (BitVec.extractLsb'_append_eq_of_le (by decide)).trans rfl
  have hres : (encode (.encode len)).extractLsb' 24 4 = 0#4 := (BitVec.extractLsb'_append_eq_of_le (by decide)).trans rfl
  have hlen : (encode (.encode len)).extractLsb' 0 24 = len := BitVec.extractLsb'_append_eq_right
  rw [decode, hop, hres, hlen]
  rfl

end Sys2Proof

namespace Sys2Proof.Machine

/-! ### The ports -/

/-- An ENCODE on port `R` is illegal before anything else of it is looked at (rules R130, R187). -/
theorem execEncode_render {s : State} (len : BitVec 24) (ha : s.active = .render) :
    execEncode len s = .next (s.raise .illegalCmd (encode (.encode len))) := by
  simp [execEncode, ha]

/-- A whole frame on port `H` with no job in flight starts its job (rule R130). -/
theorem execEncode_accepts {s : State} {len : BitVec 24} (ha : s.active = .host)
    (hsize : frameSizeOk s.cfg len s.payload = true) (hidle : s.busy = false) :
    execEncode len s = .next (s.retire.startJob s.payload) := by
  simp [execEncode, ha, hsize, hidle]

/-- Settles O22: the fault entry that an ENCODE on port `R` takes. -/
theorem encodeOnRenderPortIsIllegal : Obligations.EncodeOnRenderPortIsIllegal :=
  fun len s ha => ⟨_, execEncode_render len ha, s.raise_faults _ _⟩

/-- The scripted step of a port runs the command its head decodes to (rule R52). -/
theorem step_scripted_command {s : State} {p : Port} {tr : Transaction} {rest : List Transaction} {moves : List Move}
    {i : Instr} (hw : s.cfg.wf = true) (hf : s.fault = none) (hs : s.schedule = .port p :: moves)
    (hq : s.queue p = tr :: rest) (hdec : decode tr.cmd = .ok i) :
    step s = exec i { s with schedule := moves, active := p } := by
  have hq' : State.queue { s with schedule := moves } p = tr :: rest := by cases p <;> exact hq
  rw [step_scripted hw hs, moveStep, portStep_command (s := { s with schedule := moves }) hf hq', runCommand, hdec]

/-- Fetching a 32-bit word offers that word and as many zeros as its command takes, and scripts port `H` (log entry 17). -/
theorem withFetchWord_of_decode (s : State) {w : Word} {i : Instr} (hdec : decode w = .ok i) :
    s.withFetchWord 32 w.toNat =
      { s with
        hostQueue := ⟨w, List.replicate i.payloadLength 0#8⟩ :: s.hostQueue
        schedule := .port .host :: s.schedule } := by
  have hword : BitVec.ofNat 32 (w.toNat % 2 ^ 32) = w := by
    rw [Nat.mod_eq_of_lt w.isLt, BitVec.ofNat_toNat, BitVec.setWidth_eq]
  simp only [State.withFetchWord, zeroPayload, hword, hdec]

/-- Settles O37: the scripted step of a port, and a fetched word as an offer on port `H` with its step scripted. -/
theorem stepRunsTheDecodedCommand : Obligations.StepRunsTheDecodedCommand := by
  refine ⟨fun s p tr rest moves i hw hf hs hq hdec => step_scripted_command hw hf hs hq hdec, fun s w i hw hf hdec => ?_⟩
  rw [withFetchWord_of_decode s hdec]
  exact step_scripted_command (p := .host) hw hf rfl rfl hdec

/-- The word of `setFrame` carries the frame's length when `LEN` can hold it (rule R68). -/
theorem decode_setFrame (f : List Byte) : decode (setFrame f).cmd = .ok (.encode (BitVec.ofNat 24 f.length)) :=
  decode_encode_encode _

/-- A whole frame of a well-formed configuration passes the frame-size check of its own `setFrame` (rules R5, R68, R69). -/
theorem frameSizeOk_setFrame {c : Config} (hw : c.wf = true) {f : List Byte} (hf : f.length = c.frameBytes) :
    frameSizeOk c (BitVec.ofNat 24 f.length) f = true := by
  obtain ⟨-, hmax⟩ := frameBytes_bounds hw
  refine frameSizeOk_iff.2 ⟨?_, hf⟩
  rw [BitVec.toNat_ofNat, hf]
  exact Nat.mod_eq_of_lt (by omega)

/-- `setFrame` of a whole frame at the head of an idle port `H` starts a job of that frame (rules R68, R130). -/
theorem exec_setFrame {s : State} {f : List Byte} {rest : List Transaction} (hw : s.cfg.wf = true) (ha : s.active = .host)
    (hidle : s.busy = false) (hf : f.length = s.cfg.frameBytes) (hq : s.hostQueue = setFrame f :: rest) :
    exec (.encode (BitVec.ofNat 24 f.length)) s = .next (s.retire.startJob f) := by
  have hpay : s.payload = f := by simp [State.payload, State.queue, ha, hq, setFrame]
  rw [exec, execEncode_accepts ha (by rw [hpay]; exact frameSizeOk_setFrame hw hf) hidle, hpay]

/-- Settles O40: the step runs the ENCODE of `setFrame`, which starts the job of rule R130. -/
theorem setFrameStartsItsJob : Obligations.SetFrameStartsItsJob := by
  intro s f rest moves hw hfault hidle hf hq hs
  have hstep := (step_scripted_command (p := .host) hw hfault hs hq (decode_setFrame f)).trans
    (exec_setFrame hw rfl hidle hf hq)
  exact ⟨_, _, hstep, rfl, rfl, rfl, hfault, by simp [hq], .of_fields rfl rfl rfl rfl rfl rfl rfl⟩

/-! ### One cell per step -/

/-- A read of the frame copy after the engine's write of one of its cells. -/
theorem frameRead_engineFrameWrite (s : State) (j : Job) (n m : Nat) :
    (engineFrameWrite j n s).frameRead m = if m = n then some (j.frame.getD n 0#8) else s.frameRead m :=
  Memory.read_write _ _ _ _

/-- Settles O47: of the effects of a step only the two writes of the engine touch a cell, and each writes one. -/
theorem oneCellPerStep : Obligations.OneCellPerStep := by
  intro s t hstep unreset
  cases step_effect hstep with
  | frameWrite hu clear moves job pending =>
    refine .inr (.inl ⟨_, writesFrameCell_engineFrameWrite _ clear moves job pending, fun m hm => ?_, fun a => ?_⟩)
    · rw [frameRead_engineFrameWrite, if_neg hm, State.frameRead, hu.frameCopy, State.frameRead]
    · rw [engineFrameWrite_buf, hu.buf]
  | wordWrite hu clear moves job framesDone pending =>
    refine .inr (.inr ⟨_, _, hu.writesWord clear moves job framesDone pending, fun n => ?_, fun a ha => ?_⟩)
    · simp [State.frameRead, hu.frameCopy]
    · rw [engineWordWrite_buf, hu.buf, hu.cfg, Memory.read_write_other _ _ ha]
  | reset _ script => exact absurd script (unreset _)
  | idle hu | response hu | fault hu | accept hu | commit hu =>
    exact .inl ⟨fun n => by simp [State.frameRead, hu.frameCopy], fun a => by simp [hu.buf]⟩

/-- With two generations no word of a job in flight is stored in the current one (rule R57). -/
theorem State.Inv.word_target_ne {s : State} (hi : s.Inv) (hG : s.cfg.generations = 2) {j : Job} (hj : s.job = some j)
    {p q : WordPos} (hp : p ∈ j.wordPending) (hq : q.inRange s.cfg = true) :
    bufIndex s.cfg s.curGen q ≠ bufIndex s.cfg j.tg p := by
  intro heq
  obtain ⟨hgen, -⟩ := bufIndex_inj s.cfg hq ((hi.job j hj).wordRange p hp) heq
  exact targetGen_ne hG s.curGen ((hi.job j hj).target.symm.trans hgen.symm)

/-- Settles O46: a word that changes is one the engine writes, and those are not in the current generation; CUR_GEN that changes is the
commit's. -/
theorem currentGenerationIsStable : Obligations.CurrentGenerationIsStable := by
  intro s t hi hG hstep unreset
  have he := step_effect hstep
  refine ⟨fun q hq => ?_, fun hgen => ?_⟩
  · rw [State.bufRead, State.bufRead, he.cfg]
    by_contra hne
    obtain ⟨p, hwrite⟩ := he.bufCell_writer unreset hne
    obtain ⟨j, hj, -, hp, ha, -⟩ := hwrite.wrote
    exact hi.word_target_ne hG hj hp hq ha
  · obtain ⟨-, hcommit⟩ := he.curGen_writer unreset hgen
    obtain ⟨j, hj, -, -, hnone, -⟩ := hcommit.wrote
    exact ⟨by rw [hj]; rfl, hnone⟩

/-! ### Coherence -/

/-- What the storage holds is said of these five fields only. -/
theorem State.Holds.of_fields {s t : State} {f : List Byte} (h : s.Holds f) (hc : t.cfg = s.cfg)
    (hf : t.frameCopy = s.frameCopy) (hb : t.buf = s.buf) (hg : t.curGen = s.curGen) (hj : t.job = s.job) : t.Holds f := by
  cases s
  cases t
  dsimp only at hc hf hb hg hj
  subst hc hf hb hg hj
  exact ⟨h.whole, h.bytes, h.words⟩

theorem Rescheduled.holds {s u : State} (hu : Rescheduled s u) {f : List Byte} (h : s.Holds f) : u.Holds f :=
  h.of_fields hu.cfg hu.frameCopy hu.buf hu.curGen hu.job

/-- An idle block holds the committed frame itself (rules R63, R135). -/
theorem State.Holds.of_idle {s : State} {f : List Byte} (h : s.Holds f) (hj : s.job = none) :
    (∀ n, n < s.cfg.frameBytes → s.frameRead n = some (f.getD n 0#8)) ∧
      ∀ p : WordPos, p.inRange s.cfg = true → s.bufRead s.curGen p = some (enc s.cfg f p) :=
  ⟨by simpa only [hj] using h.bytes, by simpa only [hj] using h.words⟩

/-- A busy block holds the committed frame where its job has not written, and the job's where it has (rules R54, R55). -/
theorem State.Holds.of_job {s : State} {f : List Byte} (h : s.Holds f) {j : Job} (hj : s.job = some j) :
    (∀ n, n < s.cfg.frameBytes →
      s.frameRead n = some (if n ∈ j.framePending then f.getD n 0#8 else j.frame.getD n 0#8)) ∧
    ∀ p : WordPos, p.inRange s.cfg = true →
      s.bufRead s.curGen p =
        some (if j.tg = s.curGen ∧ p ∉ j.wordPending then enc s.cfg j.frame p else enc s.cfg f p) :=
  ⟨by simpa only [hj] using h.bytes, by simpa only [hj] using h.words⟩

/-- A job just accepted has written nothing, so the committed frame still stands everywhere (rules R54, R130). -/
theorem State.Holds.startJob {s : State} {f : List Byte} (h : s.Holds f) (hj : s.job = none) (frame : List Byte) :
    (s.startJob frame).Holds f where
  whole := h.whole
  bytes n hn := by
    have hmem : n ∈ List.range s.cfg.frameBytes := List.mem_range.2 hn
    simp only [State.startJob_job, hmem, if_true]
    exact (h.of_idle hj).1 n hn
  words p hp := by
    have hmem : p ∈ allWordPos s.cfg := (mem_allWordPos s.cfg p).2 hp
    simp only [State.startJob_job, hmem, not_true_eq_false, and_false, if_false]
    exact (h.of_idle hj).2 p hp

/-- A frame cell the engine writes passes from the committed frame to the job's; no other cell moves (rule R131). -/
theorem State.Holds.frameWrite {s : State} {f : List Byte} (h : s.Holds f) {j : Job} (hj : s.job = some j) (n : Nat) :
    (engineFrameWrite j n s).Holds f where
  whole := h.whole
  bytes m hm := by
    rw [frameRead_engineFrameWrite, (h.of_job hj).1 m hm]
    by_cases hmn : m = n <;> simp [hmn]
  words := (h.of_job hj).2

/-- A word the engine writes passes from the committed frame to the job's where the job's target is the current generation, and is no
word of the current generation otherwise (rules R55, R57, R132). -/
theorem State.Holds.wordWrite {s : State} {f : List Byte} (h : s.Holds f) {j : Job} (hj : s.job = some j) {p : WordPos}
    (hp : p.inRange s.cfg = true) : (engineWordWrite j p s).Holds f where
  whole := h.whole
  bytes := (h.of_job hj).1
  words q hq := by
    rw [engineWordWrite_curGen, bufRead_engineWordWrite s j s.curGen hp hq, (h.of_job hj).2 q hq]
    by_cases hg : j.tg = s.curGen
    · by_cases hqp : q = p <;> simp [hg, hqp]
    · simp [hg, Ne.symm hg]

/-- A job that has written all its cells leaves its own frame behind when it commits, its target being the generation that is then
current (rules R133, R135). -/
theorem State.Inv.commit_holds {s : State} (h : s.Inv) {j : Job} (hj : s.job = some j) (framesDone : j.framePending = [])
    (wordsDone : j.wordPending = []) : (s.commit j.tg).Holds j.frame := by
  have hi := h.job j hj
  have hg : (s.commit j.tg).curGen = j.tg := by
    rw [State.commit_curGen]
    split
    · rfl
    · obtain ⟨-, -, hG, -⟩ := (config_wf_iff s.cfg).1 h.config
      have hone : s.cfg.generations = 1 := by omega
      rw [hi.target, targetGen_one hone, h.oneGen hone]
  exact
    { whole := hi.frame
      bytes := fun n hn => hi.frameCells n hn (by simp [framesDone])
      words := fun p hp => by
        rw [hg]
        exact hi.wordCells p hp (by simp [wordsDone]) }

/-- Without a reset or a commit READY stays as it was, so a frame held before makes the state after coherent. -/
theorem State.Coherent.of_holds {s t : State} (h : s.Coherent) (hr : t.ready = s.ready)
    (hf : ∀ f, s.Holds f → t.Holds f) : t.Coherent :=
  fun ht => (h (hr ▸ ht)).imp hf

/-- Every effect of a step keeps coherence: the commit makes the job's frame the committed one, a reset clears READY, and every other
effect keeps the frame that was committed. -/
theorem StepEffect.coherent {s t : State} (he : StepEffect s t) (hi : s.Inv) (h : s.Coherent) : t.Coherent := by
  cases he with
  | idle hu => exact h.of_holds hu.ready fun _ hf => hu.holds hf
  | response hu w => exact h.of_holds hu.ready fun _ hf => (hu.holds hf).of_fields rfl rfl rfl rfl rfl
  | fault hu _ _ _ code => exact h.of_holds hu.ready fun _ hf => (hu.holds hf).of_fields rfl rfl rfl rfl rfl
  | @accept u tr _ _ hu _ _ _ _ _ _ free =>
    have hjob : u.retire.job = none := by simpa [free, hu.job] using hi.busyJob
    exact h.of_holds hu.ready fun _ hf =>
      ((hu.holds hf).of_fields (t := u.retire) rfl rfl rfl rfl rfl).startJob hjob tr.payload
  | frameWrite hu _ _ job => exact h.of_holds hu.ready fun _ hf => (hu.holds hf).frameWrite (hu.job.trans job) _
  | wordWrite hu _ _ job _ pending =>
    have hp := (hi.job _ job).wordRange _ pending
    rw [← hu.cfg] at hp
    exact h.of_holds hu.ready fun _ hf => (hu.holds hf).wordWrite (hu.job.trans job) hp
  | commit hu _ _ job framesDone wordsDone =>
    exact fun _ => ⟨_, (hu.inv hi).commit_holds (hu.job.trans job) framesDone wordsDone⟩
  | reset => exact fun hr => nomatch hr

/-- Settles O51: a step has one of the named effects, and each keeps coherence. -/
theorem stepKeepsCoherence : Obligations.StepKeepsCoherence :=
  fun _ _ hi h hstep => (step_effect hstep).coherent hi h

/-! ### Mixes of old and new words -/

/-- A scripted step of the engine that chooses a pending word is its write (rules R54, R132). -/
theorem step_engine_word {s : State} {j : Job} {p : WordPos} {choice : Nat} {moves : List Move} (hw : s.cfg.wf = true)
    (hf : s.fault = none) (hs : s.schedule = .engine choice :: moves) (hj : s.job = some j) (framesDone : j.framePending = [])
    (hpick : pick j.wordPending choice = some p) :
    step s = .next (engineWordWrite j p { s with schedule := moves }) := by
  rw [step_scripted hw hs, moveStep]
  simp [engineStep, State.halted, hf, hj, framesDone, pick_eq_none.2, hpick]

/-- Settles O45, by induction on the chosen words: each is pending until the engine takes it, so some choice takes it next. -/
theorem everyMixOfWordsIsReached : Obligations.EveryMixOfWordsIsReached := by
  intro s j chosen
  induction chosen generalizing s j with
  | nil => exact fun _ _ _ _ _ _ => ⟨[], rfl, _, rfl, rfl, fun p _ => by simp [State.bufRead]⟩
  | cons p ps ih =>
    intro hi hf hj framesDone hnodup hsub
    obtain ⟨hnotin, hnodup'⟩ := List.nodup_cons.1 hnodup
    have hp : p ∈ j.wordPending := hsub p List.mem_cons_self
    have hsub' : ∀ q, q ∈ ps → q ∈ without j.wordPending p := fun q hq =>
      mem_without.2 ⟨hsub q (List.mem_cons_of_mem p hq), fun hqp => hnotin (hqp ▸ hq)⟩
    obtain ⟨choice, hpick⟩ := exists_pick hp
    obtain ⟨choices, hlen, t, hrun, hready, hread⟩ :=
      ih (engineWordWrite j p s) { j with wordPending := without j.wordPending p } (hi.wordWrite hj framesDone hp) hf rfl
        framesDone hnodup' hsub'
    have hstep := step_engine_word (s := { s with schedule := (choice :: choices).map .engine }) hi.config hf rfl hj framesDone
      hpick
    refine ⟨choice :: choices, by simp [hlen], t, (runSteps_succ hstep ps.length).trans hrun, hready, fun q hq => ?_⟩
    rw [hread q hq, bufRead_engineWordWrite s j j.tg ((hi.job j hj).wordRange p hp) hq]
    by_cases hqp : q = p <;> simp [hqp, hnotin]

/-! ### The status word -/

/-- READY is bit 0 of the status word (rule R31). -/
theorem State.statusWord_getLsbD_zero (s : State) : s.statusWord.getLsbD 0 = s.ready := by
  cases h : s.ready <;> simp [State.statusWord, h]

/-- BUSY is bit 1 of the status word (rule R31). -/
theorem State.statusWord_getLsbD_one (s : State) : s.statusWord.getLsbD 1 = s.busy := by
  simp [State.statusWord]

/-- A command answers one word. -/
theorem Responds.word_unique {s t : State} {w w' : Word} (h : Responds s t w) (h' : Responds s t w') : w = w' := by
  have heq := h.response.symm.trans h'.response
  simpa using heq

/-- Settles O55: the word returned is the status word, so the block is ready and idle, and then holds the committed frame alone. -/
theorem idleReadyStatusMeansOneWholeFrame : Obligations.IdleReadyStatusMeansOneWholeFrame := by
  intro s t w hi hc hexec hresp hready hbusy
  obtain rfl : s.respond s.statusWord = t := Host.Outcome.next.inj hexec
  obtain rfl : w = s.statusWord := hresp.word_unique (s.respond_responds _)
  rw [s.statusWord_getLsbD_zero] at hready
  rw [s.statusWord_getLsbD_one] at hbusy
  have hjob : s.job = none := by simpa [hbusy] using hi.busyJob
  obtain ⟨f, hf⟩ := hc hready
  exact ⟨f, hf.whole, hf.of_idle hjob⟩

/-! ### The render consumer -/

/-- Blocks of one length side by side: entry `k` of block `y` stands at `y * m + k`. -/
theorem flatMap_range_getElem? {α : Type} {f : Nat → List α} {m : Nat} (hf : ∀ y, (f y).length = m) {n y k : Nat}
    (hy : y < n) (hk : k < m) : ((List.range n).flatMap f)[y * m + k]? = (f y)[k]? := by
  induction n with
  | zero => omega
  | succ n ih =>
    have hlen : ((List.range n).flatMap f).length = n * m := by simp [List.length_flatMap, hf]
    rw [List.range_succ, List.flatMap_append, List.flatMap_singleton]
    by_cases hyn : y = n
    · subst hyn
      rw [List.getElem?_append_right (by omega), hlen, Nat.add_sub_cancel_left]
    · have hlt : y * m + k < n * m := digits_lt (by omega) hk
      rw [List.getElem?_append_left (by omega), ih (by omega)]

section
variable (c : Config) (gen : BitVec 1) (phase : BitVec 3) (y : Nat)

theorem length_renderRow : (renderRow c gen phase y).length = c.wordsPerRow + 1 := by simp [renderRow]

/-- Entry `k` of a row below its last is the read of word `k` (rule R66). -/
theorem renderRow_getElem?_word {k : Nat} (hk : k < c.wordsPerRow) :
    (renderRow c gen phase y)[k]? = some (.rdword gen phase (BitVec.ofNat 12 y) (BitVec.ofNat 12 k)) := by
  simp [renderRow, List.getElem?_append_left, hk]

/-- The last entry of a row is the read of the phase's delay value (rules R66, R165). -/
theorem renderRow_getElem?_delay : (renderRow c gen phase y)[c.wordsPerRow]? = some (.rddelay phase) := by
  simp [renderRow]

theorem mem_renderRow {i : Instr} :
    i ∈ renderRow c gen phase y ↔
      (∃ k, k < c.wordsPerRow ∧ i = .rdword gen phase (BitVec.ofNat 12 y) (BitVec.ofNat 12 k)) ∨ i = .rddelay phase := by
  simp [renderRow, eq_comm]

theorem count_rddelay_renderRow : (renderRow c gen phase y).count (.rddelay phase) = 1 := by
  rw [renderRow, List.count_append, List.count_singleton_self, List.count_eq_zero_of_not_mem (by simp)]

end

/-- A pass of a ready block is its rows in ascending order (rule R66). -/
theorem renderPass_of_ready {status : Word} (h : status.getLsbD 0 = true) (c : Config) (gen : Nat → BitVec 1)
    (phase : BitVec 3) :
    renderPass c status gen phase = (List.range c.rowCount).flatMap fun y => renderRow c (gen y) phase y :=
  if_pos h

/-- The commands of a pass: words of its rows and the phase's delay value (rules R66, R165). -/
theorem mem_renderPass {c : Config} {status : Word} {gen : Nat → BitVec 1} {phase : BitVec 3} {i : Instr}
    (h : i ∈ renderPass c status gen phase) :
    (∃ y k, y < c.rowCount ∧ k < c.wordsPerRow ∧ i = .rdword (gen y) phase (BitVec.ofNat 12 y) (BitVec.ofNat 12 k)) ∨
      i = .rddelay phase := by
  rw [renderPass] at h
  split at h
  · obtain ⟨y, hy, hrow⟩ := List.mem_flatMap.1 h
    rcases (mem_renderRow ..).1 hrow with ⟨k, hk, hi⟩ | hi
    · exact .inl ⟨y, k, List.mem_range.1 hy, hk, hi⟩
    · exact .inr hi
  · exact absurd h List.not_mem_nil

/-- A row number of a well-formed configuration is its own 12-bit field (rule R5). -/
theorem toNat_row {c : Config} (hw : c.wf = true) {y : Nat} (hy : y < c.rowCount) : (BitVec.ofNat 12 y).toNat = y := by
  obtain ⟨-, hmax⟩ := rowCount_bounds hw
  rw [BitVec.toNat_ofNat]
  exact Nat.mod_eq_of_lt (by omega)

/-- A word number of a well-formed configuration is its own 12-bit field (rule R5). -/
theorem toNat_word {c : Config} (hw : c.wf = true) {k : Nat} (hk : k < c.wordsPerRow) : (BitVec.ofNat 12 k).toNat = k := by
  obtain ⟨-, hmax⟩ := wordsPerRow_bounds hw
  rw [BitVec.toNat_ofNat]
  exact Nat.mod_eq_of_lt (by omega)

/-- Settles O56: a pass is blocks of `W + 1` entries, and each block is a row. -/
theorem renderPassReadsTheDelayOncePerRow : Obligations.RenderPassReadsTheDelayOncePerRow := by
  intro c status gen phase hw
  refine ⟨fun hready => ?_, fun hready => ⟨if_neg (ne_true_of_eq_false hready), if_neg (ne_true_of_eq_false hready)⟩⟩
  have hpass := renderPass_of_ready hready c gen phase
  have hlen : ∀ y, (renderRow c (gen y) phase y).length = c.wordsPerRow + 1 := fun y => length_renderRow ..
  refine ⟨by simp [hpass, List.length_flatMap, hlen], fun y hy => ⟨fun k hk => ?_, ?_⟩, ?_, fun q hq => ?_, ?_⟩
  · refine ⟨_, _, toNat_row hw hy, toNat_word hw hk, ?_⟩
    rw [hpass, flatMap_range_getElem? hlen hy (by omega), renderRow_getElem?_word _ _ _ _ hk]
  · rw [hpass, flatMap_range_getElem? hlen hy (by omega), renderRow_getElem?_delay]
  · simp [hpass, List.count_flatMap, Function.comp_def, count_rddelay_renderRow]
  · rcases mem_renderPass hq with ⟨y, k, -, -, hi⟩ | hi
    · exact nomatch hi
    · exact Instr.rddelay.inj hi
  · rw [nextPhase, if_pos hready]
    exact BitVec.toNat_add _ _

/-- The current generation exists (rules R27, R136). -/
theorem State.Inv.curGen_lt {s : State} (h : s.Inv) : s.curGen.toNat < s.cfg.generations := by
  obtain ⟨-, -, hG, -⟩ := (config_wf_iff s.cfg).1 h.config
  rcases hG with hone | htwo
  · simp [h.oneGen hone, hone]
  · rw [htwo]; exact s.curGen.isLt

/-- RDWORD in range of a ready block responds with the value of its cell (rule R141). -/
theorem execRdword_responds {s : State} {gen : BitVec 1} {plane : BitVec 3} {row idx : BitVec 12} {w : Word}
    (hrange : rdwordInRange s.cfg gen row idx = true) (hready : s.ready = true)
    (hcell : s.bufRead gen (wordPosOf plane row idx) = some w) :
    execRdword gen plane row idx s = .next (s.respond w) := by
  simp [execRdword, hrange, State.respondCell, hready, hcell]

/-- In a ready coherent block RDWORD of any word of the current generation responds (rules R70, R141). -/
theorem exec_rdword_curGen_responds {s : State} {f : List Byte} (hi : s.Inv) (hf : s.Holds f) (hready : s.ready = true)
    (plane : BitVec 3) {row idx : BitVec 12} (hrow : row.toNat < s.cfg.rowCount) (hidx : idx.toNat < s.cfg.wordsPerRow) :
    ∃ t w, exec (.rdword s.curGen plane row idx) s = .next t ∧ Responds s t w := by
  have hrange : rdwordInRange s.cfg s.curGen row idx = true := by simp [rdwordInRange, hi.curGen_lt, hrow, hidx]
  have hpos : (wordPosOf plane row idx).inRange s.cfg = true :=
    (WordPos.inRange_iff _ _).2 ⟨plane.isLt, hrow, hidx⟩
  exact ⟨_, _, execRdword_responds hrange hready (hf.words _ hpos), s.respond_responds _⟩

/-- Settles O57: a pass holds words of the current generation and the phase's delay value, and both respond. -/
theorem everyCommandOfARenderPassResponds : Obligations.EveryCommandOfARenderPassResponds := by
  intro s status phase i hi hc hready hmem
  obtain ⟨f, hf⟩ := hc hready
  rcases mem_renderPass hmem with ⟨y, k, hy, hk, rfl⟩ | rfl
  · exact exec_rdword_curGen_responds hi hf hready phase (by rwa [toNat_row hi.config hy])
      (by rwa [toNat_word hi.config hk])
  · exact ⟨_, _, rfl, s.respond_responds _⟩

end Sys2Proof.Machine
end

section
/-! Proofs of the statements of 30_encoding.md: the decoder said once per opcode, the fields of every encoded word, the assembler's words,
and the pseudo-commands. -/

namespace Sys2Proof

/-! ### The decoder, opcode by opcode -/

section
variable {w : Word}

theorem decode_of_op_encode (h : w.extractLsb' 28 4 = 1#4) :
    decode w = if w.extractLsb' 24 4 = 0#4 then .ok (.encode (w.extractLsb' 0 24)) else .error .reservedBits := by
  rw [decode, h]
  rfl

theorem decode_of_op_rdword (h : w.extractLsb' 28 4 = 2#4) :
    decode w =
      .ok (.rdword (w.extractLsb' 27 1) (w.extractLsb' 24 3) (w.extractLsb' 12 12) (w.extractLsb' 0 12)) := by
  rw [decode, h]
  rfl

theorem decode_of_op_rddelay (h : w.extractLsb' 28 4 = 3#4) :
    decode w =
      if w.extractLsb' 27 1 = 0#1 ∧ w.extractLsb' 0 24 = 0#24 then .ok (.rddelay (w.extractLsb' 24 3))
      else .error .reservedBits := by
  rw [decode, h]
  rfl

theorem decode_of_op_rdstatus (h : w.extractLsb' 28 4 = 4#4) :
    decode w = if w.extractLsb' 0 28 = 0#28 then .ok .rdstatus else .error .reservedBits := by
  rw [decode, h]
  rfl

theorem decode_of_op_rdframe (h : w.extractLsb' 28 4 = 5#4) :
    decode w =
      if w.extractLsb' 24 4 = 0#4 then .ok (.rdframe (w.extractLsb' 12 12) (w.extractLsb' 0 12))
      else .error .reservedBits := by
  rw [decode, h]
  rfl

/-- The opcodes of rule R88 that name no command. -/
def OpReserved (w : Word) : Prop := (w.extractLsb' 28 4).toNat = 0 ∨ 6 ≤ (w.extractLsb' 28 4).toNat

/-- A defined opcode with a 1 in a bit that must be 0 (rule R90). -/
def ReservedBitSet (w : Word) : Prop :=
  let op := (w.extractLsb' 28 4).toNat
  (op = 1 ∧ w.extractLsb' 24 4 ≠ 0#4) ∨ (op = 3 ∧ (w.getLsbD 27 = true ∨ w.extractLsb' 0 24 ≠ 0#24)) ∨
    (op = 4 ∧ w.extractLsb' 0 28 ≠ 0#28) ∨ (op = 5 ∧ w.extractLsb' 24 4 ≠ 0#4)

theorem decode_of_op_reserved (h : OpReserved w) : decode w = .error .reservedOp := by
  unfold OpReserved at h
  unfold decode
  split
  case h_6 => rfl
  all_goals rename_i hop; rw [hop] at h; exact absurd h (by decide)

/-- The 16 opcodes: reserved, or one of the five commands' (rule R88). -/
theorem op_cases (w : Word) :
    OpReserved w ∨ w.extractLsb' 28 4 = 1#4 ∨ w.extractLsb' 28 4 = 2#4 ∨ w.extractLsb' 28 4 = 3#4 ∨
      w.extractLsb' 28 4 = 4#4 ∨ w.extractLsb' 28 4 = 5#4 := by
  unfold OpReserved
  generalize w.extractLsb' 28 4 = op
  revert op
  decide

/-- A field of one bit is 0 exactly when that bit is. -/
theorem bit_field_eq_zero_iff (w : Word) (i : Nat) : w.extractLsb' i 1 = 0#1 ↔ w.getLsbD i = false := by
  rw [BitVec.eq_of_getLsbD_eq_iff]
  simp

/-- A reserved bit that is set is found under each opcode that has one (rule R90). -/
theorem decode_of_reservedBitSet (h : ReservedBitSet w) : decode w = .error .reservedBits := by
  rcases h with ⟨hop, hres⟩ | ⟨hop, hres⟩ | ⟨hop, hres⟩ | ⟨hop, hres⟩
  · rw [decode_of_op_encode (BitVec.eq_of_toNat_eq hop), if_neg hres]
  · have hres' : ¬ (w.extractLsb' 27 1 = 0#1 ∧ w.extractLsb' 0 24 = 0#24) := by
      rw [bit_field_eq_zero_iff]
      rintro ⟨hbit, hlow⟩
      exact hres.elim (ne_true_of_eq_false hbit) (absurd hlow)
    rw [decode_of_op_rddelay (BitVec.eq_of_toNat_eq hop), if_neg hres']
  · rw [decode_of_op_rdstatus (BitVec.eq_of_toNat_eq hop), if_neg hres]
  · rw [decode_of_op_rdframe (BitVec.eq_of_toNat_eq hop), if_neg hres]

/-- A defined opcode without a reserved bit set selects a command (rule R91). -/
theorem exists_decode_of_wellFormed (hop : ¬ OpReserved w) (hres : ¬ ReservedBitSet w) : ∃ i, decode w = .ok i := by
  simp only [ReservedBitSet, not_or, not_and, not_not] at hres
  obtain ⟨hone, hthree, hfour, hfive⟩ := hres
  rcases op_cases w with h | h | h | h | h | h
  · exact absurd h hop
  · exact ⟨_, by rw [decode_of_op_encode h, if_pos (hone (by rw [h]; rfl))]⟩
  · exact ⟨_, decode_of_op_rdword h⟩
  · obtain ⟨hbit, hlow⟩ := hthree (by rw [h]; rfl)
    exact ⟨_, by rw [decode_of_op_rddelay h,
      if_pos ⟨(bit_field_eq_zero_iff w 27).2 (eq_false_of_ne_true hbit), hlow⟩]⟩
  · exact ⟨_, by rw [decode_of_op_rdstatus h, if_pos (hfour (by rw [h]; rfl))]⟩
  · exact ⟨_, by rw [decode_of_op_rdframe h, if_pos (hfive (by rw [h]; rfl))]⟩

end

/-! ### The round trip -/

theorem decode_encode_rdword (gen : BitVec 1) (plane : BitVec 3) (row idx : BitVec 12) :
    decode (encode (.rdword gen plane row idx)) = .ok (.rdword gen plane row idx) := by
  have hidx : (encode (.rdword gen plane row idx)).extractLsb' 0 12 = idx := BitVec.extractLsb'_append_eq_right
  have hrow : (encode (.rdword gen plane row idx)).extractLsb' 12 12 = row :=
    (BitVec.extractLsb'_append_eq_of_le (by decide)).trans BitVec.extractLsb'_append_eq_right
  have hplane : (encode (.rdword gen plane row idx)).extractLsb' 24 3 = plane :=
    (BitVec.extractLsb'_append_eq_of_le (by decide)).trans <|
      (BitVec.extractLsb'_append_eq_of_le (by decide)).trans BitVec.extractLsb'_append_eq_right
  have hgen : (encode (.rdword gen plane row idx)).extractLsb' 27 1 = gen :=
    (BitVec.extractLsb'_append_eq_of_le (by decide)).trans <|
      (BitVec.extractLsb'_append_eq_of_le (by decide)).trans <|
        (BitVec.extractLsb'_append_eq_of_le (by decide)).trans BitVec.extractLsb'_append_eq_right
  have hop : (encode (.rdword gen plane row idx)).extractLsb' 28 4 = 2#4 :=
    (BitVec.extractLsb'_append_eq_of_le (by decide)).trans <|
      (BitVec.extractLsb'_append_eq_of_le (by decide)).trans <|
        (BitVec.extractLsb'_append_eq_of_le (by decide)).trans BitVec.extractLsb'_append_eq_left
  rw [decode_of_op_rdword hop, hgen, hplane, hrow, hidx]

theorem decode_encode_rddelay (phase : BitVec 3) : decode (encode (.rddelay phase)) = .ok (.rddelay phase) := by
  have hlow : (encode (.rddelay phase)).extractLsb' 0 24 = 0#24 := BitVec.extractLsb'_append_eq_right
  have hphase : (encode (.rddelay phase)).extractLsb' 24 3 = phase :=
    (BitVec.extractLsb'_append_eq_of_le (by decide)).trans BitVec.extractLsb'_append_eq_right
  have hbit : (encode (.rddelay phase)).extractLsb' 27 1 = 0#1 :=
    (BitVec.extractLsb'_append_eq_of_le (by decide)).trans <|
      (BitVec.extractLsb'_append_eq_of_le (by decide)).trans BitVec.extractLsb'_append_eq_right
  have hop : (encode (.rddelay phase)).extractLsb' 28 4 = 3#4 :=
    (BitVec.extractLsb'_append_eq_of_le (by decide)).trans <|
      (BitVec.extractLsb'_append_eq_of_le (by decide)).trans BitVec.extractLsb'_append_eq_left
  rw [decode_of_op_rddelay hop, if_pos ⟨hbit, hlow⟩, hphase]

theorem decode_encode_rdstatus : decode (encode .rdstatus) = .ok .rdstatus := rfl

theorem decode_encode_rdframe (row col : BitVec 12) : decode (encode (.rdframe row col)) = .ok (.rdframe row col) := by
  have hcol : (encode (.rdframe row col)).extractLsb' 0 12 = col := BitVec.extractLsb'_append_eq_right
  have hrow : (encode (.rdframe row col)).extractLsb' 12 12 = row :=
    (BitVec.extractLsb'_append_eq_of_le (by decide)).trans BitVec.extractLsb'_append_eq_right
  have hres : (encode (.rdframe row col)).extractLsb' 24 4 = 0#4 :=
    (BitVec.extractLsb'_append_eq_of_le (by decide)).trans <|
      (BitVec.extractLsb'_append_eq_of_le (by decide)).trans BitVec.extractLsb'_append_eq_right
  have hop : (encode (.rdframe row col)).extractLsb' 28 4 = 5#4 :=
    (BitVec.extractLsb'_append_eq_of_le (by decide)).trans <|
      (BitVec.extractLsb'_append_eq_of_le (by decide)).trans BitVec.extractLsb'_append_eq_left
  rw [decode_of_op_rdframe hop, if_pos hres, hrow, hcol]

/-- Settles O1, command by command: the decoder reads back the fields the encoder put side by side. -/
theorem decodeEncodeRoundTrip : Obligations.DecodeEncodeRoundTrip
  | .encode len => decode_encode_encode len
  | .rdword gen plane row idx => decode_encode_rdword gen plane row idx
  | .rddelay phase => decode_encode_rddelay phase
  | .rdstatus => decode_encode_rdstatus
  | .rdframe row col => decode_encode_rdframe row col

/-- A word is the word of the command it decodes to, and of no other. -/
theorem encode_eq_iff {w : Word} {i : Instr} : encode i = w ↔ decode w = .ok i :=
  ⟨fun h => h ▸ decodeEncodeRoundTrip i, encode_of_decode⟩

/-- Settles O2: the two rejections of the decoder, and of an accepted word the command it decodes to, which by the round trip is the
only one with that word. -/
theorem everyWordIsOneCommandOrIllegal : Obligations.EveryWordIsOneCommandOrIllegal := by
  intro w op reservedBit
  refine ⟨decode_of_op_reserved, decode_of_reservedBitSet, fun ⟨hlo, hhi, hres⟩ => ?_⟩
  have hop : ¬ OpReserved w := by
    rintro (hzero | hsix) <;> omega
  obtain ⟨i, hi⟩ := exists_decode_of_wellFormed hop hres
  refine ⟨i, hi, encode_eq_iff.2 hi, fun i' hi' => ?_⟩
  exact Except.ok.inj ((encode_eq_iff.1 hi').symm.trans hi)

/-- Settles O3: fields side by side are their shifts joined by OR, and the constant fields together are the match (rules R87, R92). -/
theorem assemblerWordsOfTheCommands : Obligations.AssemblerWordsOfTheCommands := by
  refine ⟨fun len => ?_, fun gen plane row idx => ?_, fun phase => ?_, rfl, fun row col => ?_⟩ <;>
    refine (BitVec.setWidth_eq _).symm.trans ?_
  · exact BitVec.setWidth_append_eq_shiftLeft_setWidth_or
  · refine BitVec.setWidth_append_append_append_eq_shiftLeft_setWidth_or.trans ?_
    rw [BitVec.setWidth_append_eq_shiftLeft_setWidth_or, BitVec.shiftLeft_or_distrib]
    rfl
  · exact BitVec.setWidth_append_append_eq_shiftLeft_setWidth_or.trans BitVec.or_zero
  · exact BitVec.setWidth_append_append_eq_shiftLeft_setWidth_or

end Sys2Proof

namespace Sys2Proof.Machine

/-! ### A word that is no command -/

/-- What a port is offered does not depend on the script or on the active port. -/
theorem State.queue_scheduled (s : State) (moves : List Move) (a p : Port) :
    State.queue { s with schedule := moves, active := a } p = s.queue p := by
  cases p <;> rfl

/-- The scripted step of a port whose head is no command is the fault entry of E_ILLEGAL_CMD (rules R89, R90, R181). -/
theorem step_scripted_illegal {s : State} {p : Port} {tr : Transaction} {rest : List Transaction} {moves : List Move}
    {r : DecodeReject} (hw : s.cfg.wf = true) (hf : s.fault = none) (hs : s.schedule = .port p :: moves)
    (hq : s.queue p = tr :: rest) (hdec : decode tr.cmd = .error r) :
    step s = .next (State.raise { s with schedule := moves, active := p } .illegalCmd tr.cmd) := by
  have hq' : State.queue { s with schedule := moves } p = tr :: rest := (s.queue_scheduled moves s.active p).trans hq
  rw [step_scripted hw hs, moveStep, portStep_command (s := { s with schedule := moves }) hf hq', runCommand, hdec]

/-- Settles O31: the step is the fault entry, which records the word and its port and takes the offer. -/
theorem illegalWordsFault : Obligations.IllegalWordsFault := by
  intro s p tr rest moves r hw hf hs hq hdec
  have hfaults := State.raise_faults { s with schedule := moves, active := p } .illegalCmd tr.cmd
  refine ⟨_, step_scripted_illegal hw hf hs hq hdec, hfaults.fault, .of_fields rfl rfl rfl rfl rfl rfl rfl,
    hfaults.responses, ?_, hfaults.offer.schedule⟩
  exact hfaults.offer.taken.trans (by rw [State.queue_scheduled, hq, List.tail_cons])

/-! ### The pseudo-commands -/

/-- Of a single command none is left once a response has come. -/
theorem singleton_getElem?_length {α : Type} (i : α) {answers : List Word} (h : answers ≠ []) :
    [i][answers.length]? = none :=
  List.getElem?_eq_none (List.length_pos_of_ne_nil h)

section
variable (c : Config) (gen : BitVec 1) (plane : BitVec 3) (row : BitVec 12) (answers : List Word)

/-- RDROW's next command is the RDWORD of the first word not yet answered (rule R93). -/
theorem Pseudo.next_rdrow_of_le (h : answers.length ≤ c.colModules) :
    (Pseudo.rdrow gen plane row).next c answers = some (.rdword gen plane row (BitVec.ofNat 12 answers.length)) := by
  have hlt : answers.length < c.wordsPerRow := Nat.lt_succ_of_le h
  simp [Pseudo.next, Pseudo.expand, hlt]

theorem Pseudo.next_rdrow_of_lt (h : c.colModules < answers.length) :
    (Pseudo.rdrow gen plane row).next c answers = none := by
  have hle : c.wordsPerRow ≤ answers.length := h
  simp [Pseudo.next, Pseudo.expand, hle]

theorem Pseudo.next_rdctrl_answered (h : answers ≠ []) : (Pseudo.rdctrl gen plane row).next c answers = none :=
  singleton_getElem?_length _ h

theorem Pseudo.next_rdpix_of_lt {grp : BitVec 12} (h : grp.toNat < c.colModules) :
    (Pseudo.rdpix gen plane row grp).next c [] = some (.rdword gen plane row grp) := by
  simp [Pseudo.next, Pseudo.expand, h]

theorem Pseudo.next_rdpix_none {grp : BitVec 12} (h : answers ≠ [] ∨ c.colModules ≤ grp.toNat) :
    (Pseudo.rdpix gen plane row grp).next c answers = none := by
  rw [Pseudo.next, Pseudo.expand]
  by_cases hlt : grp.toNat < c.colModules
  · rw [if_pos hlt]
    exact singleton_getElem?_length _ (h.resolve_right (by omega))
  · rw [if_neg hlt]

end

/-- A move of a pseudo-command offers its next command on its port, and is none where no command is left. -/
theorem Pseudo.offerNext_eq_some {q : Pseudo} {p : Port} {start : Nat} {s t : State} :
    q.offerNext p start s = some t ↔ ∃ i, q.next s.cfg (s.answersOn p start) = some i ∧ s.offerOn p i = t :=
  Option.map_eq_some_iff

/-- Settles O58: the expansions case by case, and the offer of a next command. -/
theorem pseudoCommandsExpandInOrder : Obligations.PseudoCommandsExpandInOrder := by
  refine ⟨fun c gen plane row answers hw => ⟨fun hle => ?_, fun hlt => ?_, ?_, fun hne => ?_, fun grp => ⟨?_, ?_⟩⟩,
    fun q p start s t h => ?_⟩
  · exact ⟨_, toNat_word hw (Nat.lt_succ_of_le hle), Pseudo.next_rdrow_of_le c gen plane row answers hle⟩
  · exact Pseudo.next_rdrow_of_lt c gen plane row answers hlt
  · rintro rfl
    exact ⟨_, toNat_word hw (Nat.lt_succ_self c.colModules), rfl⟩
  · exact Pseudo.next_rdctrl_answered c gen plane row answers hne
  · rintro ⟨rfl, hlt⟩
    exact Pseudo.next_rdpix_of_lt c gen plane row hlt
  · exact Pseudo.next_rdpix_none c gen plane row answers
  · obtain ⟨i, hi, rfl⟩ := Pseudo.offerNext_eq_some.1 h
    exact ⟨i, hi, s.offerOn_queue p i, fun p' hp' => s.offerOn_queue_other i hp', s.offerOn_rest p i⟩

/-- While every response has BUSY 1, WAITIDLE adds one RDSTATUS for each (rule R93). -/
theorem waitidleCommands_append {answers : List Word} (h : ∀ w, w ∈ answers → w.getLsbD 1 = true) (rest : List Word) :
    waitidleCommands (answers ++ rest) = List.replicate answers.length .rdstatus ++ waitidleCommands rest := by
  induction answers with
  | nil => rfl
  | cons a answers ih =>
    obtain ⟨ha, hanswers⟩ := List.forall_mem_cons.1 h
    rw [List.cons_append, waitidleCommands, if_pos ha, ih hanswers]
    rfl

/-- After responses that all had BUSY 1 the next command is what WAITIDLE does with the others alone. -/
theorem Pseudo.next_waitidle_append (c : Config) {answers : List Word} (h : ∀ w, w ∈ answers → w.getLsbD 1 = true)
    (rest : List Word) : Pseudo.waitidle.next c (answers ++ rest) = Pseudo.waitidle.next c rest := by
  simp [Pseudo.next, Pseudo.expand, waitidleCommands_append h, List.getElem?_append_right]

theorem Pseudo.next_waitidle_busy (c : Config) {answers : List Word} (h : ∀ w, w ∈ answers → w.getLsbD 1 = true) :
    Pseudo.waitidle.next c answers = some .rdstatus := by
  have happ := Pseudo.next_waitidle_append c h []
  rwa [List.append_nil] at happ

theorem Pseudo.next_waitidle_idle (c : Config) {answers : List Word} (h : ∀ w, w ∈ answers → w.getLsbD 1 = true)
    {w : Word} (hw : w.getLsbD 1 = false) : Pseudo.waitidle.next c (answers ++ [w]) = none := by
  rw [Pseudo.next_waitidle_append c h, Pseudo.next, Pseudo.expand, waitidleCommands, hw]
  rfl

/-- An RDSTATUS alone on a port of an unhalted block is answered by that port's step: the port is empty again, and its newest answer
carries the block's BUSY (rules R31, R51, R144). -/
theorem step_scripted_rdstatus {s : State} {p : Port} {start : Nat} (moves : List Move) (hw : s.cfg.wf = true)
    (hf : s.fault = none) (hq : s.queue p = [offer .rdstatus]) (hstart : start ≤ s.responses.length) :
    ∃ t w, step { s with schedule := .port p :: moves } = .next t ∧ t.fault = none ∧ t.queue p = [] ∧
      t.answersOn p start = s.answersOn p start ++ [w] ∧ w.getLsbD 1 = s.busy := by
  have hq' : State.queue { s with schedule := .port p :: moves } p = [offer .rdstatus] :=
    (s.queue_scheduled _ s.active p).trans hq
  have hstep := step_scripted_command (s := { s with schedule := .port p :: moves }) hw hf rfl hq' decode_encode_rdstatus
  have hresp := State.respond_responds { s with schedule := moves, active := p } s.statusWord
  refine ⟨_, s.statusWord, hstep, hresp.fault.trans hf, ?_, s.answersOn_append _ p _ hstart hresp.response,
    s.statusWord_getLsbD_one⟩
  exact hresp.offer.taken.trans (by rw [State.queue_scheduled, hq, List.tail_cons])

/-- An offer is no response. -/
theorem State.answersOn_offerOn (s : State) (p : Port) (i : Instr) (start : Nat) :
    (s.offerOn p i).answersOn p start = s.answersOn p start := by
  rw [State.answersOn, State.offerOn_responses, State.answersOn]

/-- Settles O59: one RDSTATUS is offered and answered with the status word, whose BUSY decides what comes next. -/
theorem waitidlePollsUntilIdle : Obligations.WaitidlePollsUntilIdle := by
  intro s p start moves hw hf hq hstart hpolled
  have hoffer : Pseudo.waitidle.offerNext p start s = some (s.offerOn p .rdstatus) :=
    Pseudo.offerNext_eq_some.2 ⟨_, Pseudo.next_waitidle_busy _ hpolled, rfl⟩
  have hoffered : (s.offerOn p .rdstatus).queue p = [offer .rdstatus] := by rw [State.offerOn_queue, hq, List.nil_append]
  obtain ⟨t, w, hstep, hfault, hempty, hanswers, hbusy⟩ := step_scripted_rdstatus (s := s.offerOn p .rdstatus)
    (start := start) moves (by rwa [State.offerOn_cfg]) (by rwa [State.offerOn_fault]) hoffered
    (by rwa [State.offerOn_responses])
  rw [State.answersOn_offerOn] at hanswers
  rw [State.offerOn_busy] at hbusy
  refine ⟨_, t, w, hoffer, hoffered, hstep, hfault, hempty, hanswers, hbusy, fun h => ?_, fun h => ?_⟩ <;> rw [hanswers]
  · exact Pseudo.next_waitidle_busy _ (List.forall_mem_append.2 ⟨hpolled, List.forall_mem_singleton.2 (hbusy.trans h)⟩)
  · exact Pseudo.next_waitidle_idle _ hpolled (hbusy.trans h)

end Sys2Proof.Machine
end

section
/-! Proofs of the statements of 40_encode.md: the encoding function said bit by bit, the row-control word, ENCODE, the engine's three kinds
of step, and a run of the engine from the accept to the commit. -/

namespace Sys2Proof.Machine

/-! ### The accumulation -/

/-- A 1-bit value shifted up to bit `n`. -/
theorem getLsbD_ofBool_shiftLeft (x : Bool) {n : Nat} (hn : n < 32) (i : Nat) :
    ((BitVec.ofBool x).setWidth 32 <<< n).getLsbD i = (decide (i = n) && x) := by
  cases x with
  | false => simp
  | true =>
    have h : (BitVec.ofBool true).setWidth 32 <<< n = BitVec.twoPow 32 n := (BitVec.twoPow_eq 32 n).symm
    rw [h, BitVec.getLsbD_twoPow]
    simp [hn, eq_comm]

/-- The end-of-row marker is bit 31 alone (rule R117). -/
theorem getLsbD_marker (i : Nat) : (1#32 <<< 31).getLsbD i = decide (i = 31) :=
  (getLsbD_ofBool_shiftLeft true (by decide) i).trans (Bool.and_true _)

/-- One shift: the stage enters at bit 31, every other bit comes from the bit above (rule R115). -/
theorem getLsbD_shiftIn (v : Word) (stage : Bool) (i : Nat) :
    (shiftIn v stage).getLsbD i = if i = 31 then stage else v.getLsbD (i + 1) := by
  rw [shiftIn, BitVec.getLsbD_or, getLsbD_ofBool_shiftLeft stage (by decide), BitVec.getLsbD_ushiftRight, Nat.add_comm 1 i]
  by_cases hi : i = 31 <;> simp [hi]

/-- After a row of shifts the last stage stands at bit 31 and every earlier one a bit lower (rule R115). -/
theorem getLsbD_foldl_shiftIn (ss : List Bool) (v : Word) {i : Nat} (hi : i < 32) :
    (ss.foldl shiftIn v).getLsbD i =
      if i + ss.length < 32 then v.getLsbD (i + ss.length) else ss.getD (i + ss.length - 32) false := by
  induction ss generalizing v with
  | nil => simp [hi]
  | cons b bs ih =>
    rw [List.foldl_cons, ih, getLsbD_shiftIn, List.length_cons]
    by_cases hnew : i + bs.length = 31
    · simp [hnew, ← Nat.add_assoc]
    · by_cases hold : i + bs.length < 32
      · rw [if_pos hold, if_neg hnew, if_pos (by omega), Nat.add_assoc]
      · rw [if_neg hold, if_neg (by omega), show i + (bs.length + 1) - 32 = i + bs.length - 32 + 1 by omega,
          List.getD_cons_succ]

/-- The accumulated word of 24 stages holds stage `i` at bit `i` and zeros above (rule R116). -/
theorem getLsbD_accumulate {ss : List Bool} (h : ss.length = 24) (i : Nat) :
    (accumulate ss).getLsbD i = ss.getD i false := by
  rw [accumulate, BitVec.getLsbD_ushiftRight]
  by_cases hi : i < 24
  · rw [getLsbD_foldl_shiftIn _ _ (by omega), h, if_neg (by omega), show 8 + i + 24 - 32 = i by omega]
  · rw [BitVec.getLsbD_of_ge _ _ (by omega), List.getD_eq_default _ _ (by omega)]

/-! ### The stages -/

theorem length_stages (d : Nat → Bool) : (stages d).length = 24 := by simp [stages]

/-- Group position `j` is the stage of its table position (rules R114, R116). -/
theorem stages_getD_stagePos (d : Nat → Bool) {j : Nat} (hj : j < 20) : (stages d).getD (stagePos j) false = d j := by
  interval_cases j <;> rfl

/-- The four stages outside the table are the placeholder (rule R114). -/
theorem stages_getD_placeholder (d : Nat → Bool) {i : Nat} (hi : i = 0 ∨ i = 7 ∨ i = 15 ∨ i = 23) :
    (stages d).getD i false = false := by
  rcases hi with rfl | rfl | rfl | rfl <;> rfl

/-- Every stage is a placeholder or the stage of a group position (rule R114). -/
theorem stage_cases : ∀ i, i < 24 → (i = 0 ∨ i = 7 ∨ i = 15 ∨ i = 23) ∨ ∃ j, j < 20 ∧ i = stagePos j := by
  decide

theorem stagePos_lt {j : Nat} (hj : j < 20) : stagePos j < 23 := by
  rw [stagePos]
  split <;> split <;> omega

/-- Bit 31 is no group position's (rules R116, R117). -/
theorem thirtyOne_ne_stagePos {j : Nat} (hj : j < 20) : 31 ≠ stagePos j := by
  have := stagePos_lt hj
  omega

/-- A stage is set exactly when it is that of a group position whose data bit is set (rule R114). -/
theorem stages_getD_eq_true {d : Nat → Bool} {i : Nat} :
    (stages d).getD i false = true ↔ ∃ j, j < 20 ∧ i = stagePos j ∧ d j = true := by
  constructor
  · intro h
    by_cases hi : i < 24
    · rcases stage_cases i hi with hp | ⟨j, hj, rfl⟩
      · exact absurd h (by rw [stages_getD_placeholder d hp]; decide)
      · exact ⟨j, hj, rfl, stages_getD_stagePos d hj ▸ h⟩
    · rw [List.getD_eq_default _ _ (by rw [length_stages]; omega)] at h
      cases h
  · rintro ⟨j, hj, rfl, hd⟩
    rw [stages_getD_stagePos d hj, hd]

/-- Settles O9: bit `i` of the accumulated word is stage `i`, and the stages are the table's. -/
theorem accumulatedStagesStandInOrder : Obligations.AccumulatedStagesStandInOrder := by
  refine ⟨fun ss h => ⟨fun i _ => getLsbD_accumulate h i, fun i hi => ?_⟩, fun d => ⟨fun j hj => ?_, fun i hi => ?_⟩, rfl⟩
  · rw [getLsbD_accumulate h, List.getD_eq_default _ _ (by omega)]
  · rw [getLsbD_accumulate (length_stages d), stages_getD_stagePos d hj]
  · rw [getLsbD_accumulate (length_stages d), stages_getD_placeholder d hi]

/-! ### The pixel word -/

section
variable (c : Config) (f : List Byte) (b y k : Nat)

/-- The data bit by the byte's index written out (rules R111, R112). -/
theorem dataBit_eq (j : Nat) :
    dataBit c f b y k j = (f.getD ((c.rowCount - 1 - y) * c.colCount + 20 * k + j) 0#8).getLsbD b := by
  rw [dataBit, logicalRow, moduleSize_eq, Nat.add_assoc]

/-- Every bit of the pixel word: the stages, and the end-of-row marker at bit 31 (rules R117, R118). -/
theorem getLsbD_pixelWord (i : Nat) :
    (pixelWord c f b y k).getLsbD i =
      ((stages (dataBit c f b y k)).getD i false || decide (i = 31 ∧ k + 1 = c.colModules)) := by
  rw [← getLsbD_accumulate (length_stages _)]
  by_cases hk : k + 1 = c.colModules
  · rw [pixelWord, if_pos hk, BitVec.getLsbD_or, getLsbD_marker]
    simp [hk]
  · simp [pixelWord, hk]

/-- The set bits of the pixel word: the set data bits at their stages, and bit 31 in the last group (rules R117, R118). -/
theorem getLsbD_pixelWord_eq_true {i : Nat} :
    (pixelWord c f b y k).getLsbD i = true ↔
      (∃ j, j < 20 ∧ i = stagePos j ∧ dataBit c f b y k j = true) ∨ i = 31 ∧ k + 1 = c.colModules := by
  rw [getLsbD_pixelWord, Bool.or_eq_true, stages_getD_eq_true, decide_eq_true_eq]

/-- The bit of a group position is its data bit (rule R124). -/
theorem getLsbD_pixelWord_stagePos {j : Nat} (hj : j < 20) :
    (pixelWord c f b y k).getLsbD (stagePos j) = dataBit c f b y k j := by
  rw [getLsbD_pixelWord, stages_getD_stagePos _ hj]
  simp [(thirtyOne_ne_stagePos hj).symm]

/-- A bit that is no group position's does not look at the frame (rule R127). -/
theorem getLsbD_pixelWord_other {i : Nat} (hi : ∀ j, j < 20 → i ≠ stagePos j) :
    (pixelWord c f b y k).getLsbD i = decide (i = 31 ∧ k + 1 = c.colModules) := by
  have hstage : (stages (dataBit c f b y k)).getD i false = false :=
    Bool.eq_false_iff.2 fun h => by
      obtain ⟨j, hj, hij, -⟩ := stages_getD_eq_true.1 h
      exact hi j hj hij
  rw [getLsbD_pixelWord, hstage, Bool.false_or]

end

/-- A bit of an OR over a list is set when it is set in one of the words. -/
theorem getLsbD_foldl_or {α : Type} (w : α → Word) (l : List α) (v : Word) (i : Nat) :
    (l.foldl (fun v a => v ||| w a) v).getLsbD i = true ↔ v.getLsbD i = true ∨ ∃ a, a ∈ l ∧ (w a).getLsbD i = true := by
  induction l generalizing v with
  | nil => simp
  | cons a l ih => rw [List.foldl_cons, ih]; simp [or_assoc]

/-- Settles O10: both words have the same set bits. -/
theorem pixelWordIsTheOrOfItsBits : Obligations.PixelWordIsTheOrOfItsBits := by
  intro c f b y k hk
  refine BitVec.eq_of_getLsbD_eq fun i _ => Bool.eq_iff_iff.2 ?_
  have hlast : k + 1 = c.colModules ↔ k = c.colModules - 1 := by omega
  have hmark : (if k = c.colModules - 1 then 1#32 <<< 31 else 0#32).getLsbD i = true ↔ i = 31 ∧ k = c.colModules - 1 := by
    split_ifs with h
    · rw [getLsbD_marker, decide_eq_true_eq, and_iff_left h]
    · simp [h]
  rw [getLsbD_pixelWord_eq_true, BitVec.getLsbD_or, Bool.or_eq_true, getLsbD_foldl_or, hmark, hlast]
  refine or_congr ?_ Iff.rfl
  simp only [BitVec.getLsbD_zero, Bool.false_eq_true, false_or, List.mem_range, ← dataBit_eq]
  refine exists_congr fun j => and_congr_right fun hj => ?_
  have hlt := stagePos_lt hj
  rw [getLsbD_ofBool_shiftLeft _ (by omega), Bool.and_eq_true, decide_eq_true_eq]

/-! ### The words of a row group -/

/-- Below `CM` the encoding is the pixel word (rule R110). -/
theorem enc_pixel (c : Config) (f : List Byte) (b y : Nat) {k : Nat} (hk : k < c.colModules) :
    enc c f ⟨b, y, k⟩ = pixelWord c f b y k :=
  if_pos hk

/-- At `CM` the encoding is the row-control word (rule R110). -/
theorem enc_ctrl (c : Config) (f : List Byte) (b y : Nat) : enc c f ⟨b, y, c.colModules⟩ = ctrlWord c y :=
  if_neg (Nat.lt_irrefl _)

/-- Settles O18: `W = CM + 1`, so the last index is `CM` and every one before it a pixel word's. -/
theorem everyRowGroupHasItsWordsInOrder : Obligations.EveryRowGroupHasItsWordsInOrder := by
  intro c f b y hb hy
  have hrange : ∀ k, (WordPos.mk b y k).inRange c = true ↔ k ≤ c.colModules := fun k => by
    rw [WordPos.inRange_iff]
    exact ⟨fun ⟨_, _, hk⟩ => Nat.lt_succ_iff.1 hk, fun hk => ⟨hb, hy, Nat.lt_succ_iff.2 hk⟩⟩
  refine ⟨?_, fun k hk => enc_pixel c f b y hk, enc_ctrl c f b y, hrange, fun k => (mem_allWordPos c _).trans (hrange k)⟩
  rw [Config.wordsPerRow, List.range_succ, List.map_append, List.map_singleton, enc_ctrl]
  refine congrArg (· ++ _) (List.map_congr_left fun k hk => ?_)
  exact enc_pixel c f b y (List.mem_range.1 hk)

/-- Settles O13: no stage reaches bit 31, which is the marker alone. -/
theorem endOfRowOnTheLastPixelWordOnly : Obligations.EndOfRowOnTheLastPixelWordOnly := by
  intro c f b y k hk
  have hlast : k + 1 = c.colModules ↔ k = c.colModules - 1 := by omega
  rw [enc_pixel c f b y hk, getLsbD_pixelWord_other c f b y k fun j hj => thirtyOne_ne_stagePos hj]
  simp [hlast]

/-- Settles O15: a bit that is no group position's is said without the frame. -/
theorem onlyDataBitsDependOnTheFrame : Obligations.OnlyDataBitsDependOnTheFrame := by
  intro c f f' b y
  refine ⟨by rw [enc_ctrl, enc_ctrl], fun k i hk hi => ?_⟩
  rw [enc_pixel c f b y hk, enc_pixel c f' b y hk, getLsbD_pixelWord_other c f b y k hi,
    getLsbD_pixelWord_other c f' b y k hi]

/-! ### The frame from its encoding -/

/-- The word of a group holds the bit of its pixel at the position's stage (rule R124). -/
theorem getLsbD_enc_stagePos {c : Config} (f : List Byte) (b y : Nat) {g j : Nat} (hg : g < c.colModules) (hj : j < 20) :
    (enc c f ⟨b, y, g⟩).getLsbD (stagePos j) =
      (f.getD ((c.rowCount - 1 - y) * c.colCount + 20 * g + j) 0#8).getLsbD b := by
  rw [enc_pixel c f b y hg, getLsbD_pixelWord_stagePos c f b y g hj, dataBit_eq]

theorem groupColumn_lt {c : Config} {g j : Nat} (hg : g < c.colModules) (hj : j < 20) : 20 * g + j < c.colCount := by
  rw [Config.colCount, moduleSize_eq]
  omega

/-- Every byte index is that of an output row, a group and a position in it (rules R111, R112). -/
theorem exists_pixelIndex {c : Config} {n : Nat} (hn : n < c.frameBytes) :
    ∃ y g j, y < c.rowCount ∧ g < c.colModules ∧ j < 20 ∧ (c.rowCount - 1 - y) * c.colCount + 20 * g + j = n := by
  have hpos : 0 < c.colCount := Nat.pos_of_mul_pos_left (Nat.zero_lt_of_lt hn)
  have hrow : n / c.colCount < c.rowCount := (Nat.div_lt_iff_lt_mul hpos).2 hn
  have hcol : n % c.colCount < 20 * c.colModules := Nat.mod_lt n hpos
  have hsplit : n / c.colCount * c.colCount + n % c.colCount = n := Nat.div_add_mod' n c.colCount
  generalize n / c.colCount = row at hrow hsplit
  generalize n % c.colCount = col at hcol hsplit
  refine ⟨c.rowCount - 1 - row, col / 20, col % 20, by omega, by omega, Nat.mod_lt _ (by decide), ?_⟩
  rw [show c.rowCount - 1 - (c.rowCount - 1 - row) = row by omega, Nat.add_assoc, Nat.div_add_mod, hsplit]

/-- The index of a pixel names one output row, group and position (rules R111, R112). -/
theorem pixelIndex_inj {c : Config} {y y' g g' j j' : Nat} (hy : y < c.rowCount) (hy' : y' < c.rowCount)
    (hg : g < c.colModules) (hg' : g' < c.colModules) (hj : j < 20) (hj' : j' < 20)
    (h : (c.rowCount - 1 - y) * c.colCount + 20 * g + j = (c.rowCount - 1 - y') * c.colCount + 20 * g' + j') :
    y = y' ∧ g = g' ∧ j = j' := by
  rw [Nat.add_assoc, Nat.add_assoc] at h
  obtain ⟨hrow, hcol⟩ := digits_unique (groupColumn_lt hg hj) (groupColumn_lt hg' hj') h
  omega

/-- A whole frame is determined by its encoding: every bit of every byte is at some place of it (rule R124). -/
theorem enc_inj {c : Config} {f f' : List Byte} (hf : f.length = c.frameBytes) (hf' : f'.length = c.frameBytes)
    (h : ∀ p : WordPos, p.inRange c = true → enc c f p = enc c f' p) : f = f' := by
  refine List.ext_getElem (hf.trans hf'.symm) fun n hn hn' => BitVec.eq_of_getLsbD_eq fun b hb => ?_
  obtain ⟨y, g, j, hy, hg, hj, rfl⟩ := exists_pixelIndex (hf ▸ hn)
  have hpos : (WordPos.mk b y g).inRange c = true := (WordPos.inRange_iff c _).2 ⟨hb, hy, Nat.lt_succ_of_lt hg⟩
  have hbit := congrArg (BitVec.getLsbD · (stagePos j)) (h _ hpos)
  simpa only [getLsbD_enc_stagePos _ _ _ hg hj, List.getD_eq_getElem _ _ hn, List.getD_eq_getElem _ _ hn'] using hbit

/-- Settles O12: each bit stands at its place, a byte's place is unique, and so the encoding is injective. -/
theorem encodedBitsDecodeToThePixels : Obligations.EncodedBitsDecodeToThePixels := by
  refine fun c => ⟨fun f b y g j _ _ hg hj => getLsbD_enc_stagePos f b y hg hj, fun n hn => ?_,
    fun f f' hf hf' h => enc_inj hf hf' h⟩
  obtain ⟨y, g, j, hy, hg, hj, hindex⟩ := exists_pixelIndex hn
  refine ⟨(y, g, j), ⟨hy, hg, hj, hindex⟩, ?_⟩
  rintro ⟨y', g', j'⟩ ⟨hy', hg', hj', hindex'⟩
  obtain ⟨rfl, rfl, rfl⟩ := pixelIndex_inj hy' hy hg' hg hj' hj (hindex'.trans hindex.symm)
  rfl

/-! ### Two frames -/

/-- Beyond a frame there is no byte, so zeros below its length are zeros everywhere. -/
theorem getD_eq_zero_of_lt {f : List Byte} {n : Nat} (h : n < f.length → f.getD n 0#8 = 0#8) : f.getD n 0#8 = 0#8 := by
  by_cases hn : n < f.length
  · exact h hn
  · exact List.getD_eq_default _ _ (by omega)

/-- With no data bit set the pixel word is the end-of-row marker alone (rules R117, R118). -/
theorem pixelWord_of_dark {c : Config} {f : List Byte} {b y k : Nat} (h : ∀ j, dataBit c f b y k j = false) :
    pixelWord c f b y k = if k + 1 = c.colModules then 0x80000000#32 else 0#32 := by
  have hdark : dataBit c f b y k = fun _ => false := funext h
  have hzero : accumulate (stages fun _ => false) = 0#32 := by decide
  rw [pixelWord, hdark, hzero]
  rfl

/-- Settles O16: no data bit of the all-zero frame is set. -/
theorem allZeroFrameEncoding : Obligations.AllZeroFrameEncoding := by
  intro c f hf hzero b y _ _
  have hdark : ∀ k, pixelWord c f b y k = if k + 1 = c.colModules then 0x80000000#32 else 0#32 := fun k =>
    pixelWord_of_dark fun j => by rw [dataBit_eq, getD_eq_zero_of_lt fun hn => hzero _ (hf ▸ hn), BitVec.getLsbD_zero]
  refine ⟨fun k hk => ?_, fun hpos => ?_, enc_ctrl c f b y⟩
  · rw [enc_pixel c f b y (by omega), hdark, if_neg (by omega)]
  · rw [enc_pixel c f b y (by omega), hdark, if_pos (by omega)]

/-- Pixel 0 of the frame is position 0 of group 0 of the last output row (rules R111, R112). -/
theorem pixelIndex_eq_zero {c : Config} {y g j : Nat} (hy : y < c.rowCount) (hg : g < c.colModules) (hj : j < 20) :
    (c.rowCount - 1 - y) * c.colCount + 20 * g + j = 0 ↔ y = c.rowCount - 1 ∧ g = 0 ∧ j = 0 := by
  constructor
  · intro h
    have hpos := groupColumn_lt hg hj
    have hprod : (c.rowCount - 1 - y) * c.colCount = 0 := by omega
    have hrow : c.rowCount - 1 - y = 0 := (Nat.mul_eq_zero.1 hprod).resolve_right (by omega)
    omega
  · rintro ⟨rfl, rfl, rfl⟩
    simp

/-- Settles O17: a data bit is set exactly when its pixel is pixel 0. -/
theorem singlePixelFrameEncoding : Obligations.SinglePixelFrameEncoding := by
  intro c f hf hfirst hrest b y k j hb hy hk hj
  refine ⟨?_, rfl⟩
  rw [getLsbD_enc_stagePos f b y hk hj, ← pixelIndex_eq_zero hy hk hj]
  generalize (c.rowCount - 1 - y) * c.colCount + 20 * k + j = n
  rcases Nat.eq_zero_or_pos n with rfl | hn
  · have hones : ∀ b, b < 8 → (0xFF#8).getLsbD b = true := by decide
    rw [hfirst, hones b hb]
    exact ⟨fun _ => rfl, fun _ => rfl⟩
  · rw [getD_eq_zero_of_lt fun hlt => hrest n hn (hf ▸ hlt)]
    simp [Nat.ne_of_gt hn]

/-! ### The row-control word -/

/-- The four values of the row-control word: the flag, and a count of 2 or 1 (rules R120 to R122). -/
theorem ctrlWord_eq (c : Config) (y : Nat) :
    ctrlWord c y =
      if pulseRow c y = 0 ∨ pulseRow c y = 6 ∨ pulseRow c y = 13 then if y = 0 then 5#32 else 4#32
      else if y = 0 then 3#32 else 2#32 := by
  rw [ctrlWord, firstRow, pulseCount]
  split_ifs with _ hy hy <;> simp [hy]

/-- Bits 31:3 of the row-control word are 0 (rule R122). -/
theorem getLsbD_ctrlWord_of_ge (c : Config) (y : Nat) {i : Nat} (hi : 3 ≤ i) : (ctrlWord c y).getLsbD i = false := by
  have hlt : (ctrlWord c y).toNat < 2 ^ 3 := by
    rw [ctrlWord_eq]
    split <;> split <;> decide
  exact Nat.testBit_lt_two_pow (Nat.lt_of_lt_of_le hlt (Nat.pow_le_pow_right (by decide) hi))

/-- Bit 0 of the row-control word is the first-row flag (rules R121, R122). -/
theorem getLsbD_ctrlWord_zero (c : Config) (y : Nat) : (ctrlWord c y).getLsbD 0 = true ↔ y = 0 := by
  rw [ctrlWord_eq]
  by_cases hy : y = 0 <;> split <;> simp [hy]

theorem pulseRow_output {c : Config} (h : c.pulseRowBasis = .output) (y : Nat) : pulseRow c y = y % 20 := by
  simp [pulseRow, h]

theorem pulseRow_logical {c : Config} (h : c.pulseRowBasis = .logical) (y : Nat) :
    pulseRow c y = (c.rowCount - 1 - y) % 20 := by
  simp [pulseRow, h, logicalRow]

/-- Settles O11: the pulse row is `y mod 20` or `(R - 1 - y) mod 20`, of which row 0 is a pulse row in the first basis only. -/
theorem rowControlWordValues : Obligations.RowControlWordValues := by
  intro c y hrows _
  have hflag : (BitVec.ofBool (firstRow y)).setWidth 32 = if y = 0 then 1#32 else 0#32 := by
    by_cases hy : y = 0 <;> simp [firstRow, hy]
  refine ⟨by rw [ctrlWord, hflag], fun i hi => getLsbD_ctrlWord_of_ge c y hi, fun hb => ?_, fun hb => ?_⟩
  · rw [ctrlWord_eq, pulseRow_output hb]
    by_cases hy : y = 0 <;> simp [hy]
  · have hlast : (c.rowCount - 1) % 20 = 19 := by
      rw [Config.rowCount, moduleSize_eq]
      omega
    refine ⟨hlast, ?_⟩
    rw [ctrlWord_eq, pulseRow_logical hb]
    by_cases hy : y = 0 <;> simp [hy, hlast]

/-- Settles O14: the row-control word stands at `CM`, and its bit 0 is the first-row flag. -/
theorem firstRowFlagOnRowZeroOnly : Obligations.FirstRowFlagOnRowZeroOnly := by
  intro c f b y
  rw [enc_ctrl]
  exact getLsbD_ctrlWord_zero c y

/-! ### ENCODE -/

/-- A whole frame on port `H` while a job is in flight is held (rules R130, R187, R192). -/
theorem execEncode_holds {s : State} {len : BitVec 24} (ha : s.active = .host)
    (hsize : frameSizeOk s.cfg len s.payload = true) (hbusy : s.busy = true) : execEncode len s = .next s := by
  simp [execEncode, ha, hsize, hbusy]

/-- Settles O19: the job that `startJob` makes of the payload, everything else being the state's own. -/
theorem encodeStartsTheJob : Obligations.EncodeStartsTheJob := by
  intro len s ha hlen hpay hidle
  refine ⟨_, _, execEncode_accepts ha (frameSizeOk_iff.2 ⟨hlen, hpay⟩) hidle, rfl, rfl, rfl, targetGen_one (g := s.curGen),
    fun hG => if_pos hG, fun n => List.mem_range, List.nodup_range,
    fun p => (mem_allWordPos s.cfg p).trans (WordPos.inRange_iff s.cfg p), nodup_allWordPos s.cfg, rfl, fun _ => rfl,
    fun _ => rfl, rfl, rfl, rfl, rfl, ?_, ?_⟩ <;> simp [ha]

/-- Settles O20: the port is held. -/
theorem encodeHoldsWhileBusy : Obligations.EncodeHoldsWhileBusy :=
  fun _ _ ha hlen hpay hbusy => execEncode_holds ha (frameSizeOk_iff.2 ⟨hlen, hpay⟩) hbusy

/-! ### The engine's three kinds of step -/

/-- A nonempty set always has a member to choose. -/
theorem exists_pick_eq_some {α : Type} {set : List α} (h : set ≠ []) (choice : Nat) :
    ∃ a, a ∈ set ∧ pick set choice = some a := by
  obtain ⟨a, ha⟩ := Option.ne_none_iff_exists'.1 (mt pick_eq_none.1 h)
  exact ⟨a, pick_mem ha, ha⟩

section
variable {s : State} {j : Job} {choice : Nat} (hf : s.fault = none) (hj : s.job = some j)
include hf hj

/-- A chosen pending frame cell is written (rule R131). -/
theorem engineStep_frame {n : Nat} (hn : pick j.framePending choice = some n) :
    engineStep choice s = engineFrameWrite j n s := by
  simp [engineStep, State.halted, hf, hj, hn]

/-- With no frame cell pending a chosen pending word is written (rule R132). -/
theorem engineStep_word {p : WordPos} (framesDone : j.framePending = []) (hp : pick j.wordPending choice = some p) :
    engineStep choice s = engineWordWrite j p s := by
  simp [engineStep, State.halted, hf, hj, pick_eq_none.2 framesDone, hp]

/-- With nothing pending the job commits (rule R133). -/
theorem engineStep_commit (framesDone : j.framePending = []) (wordsDone : j.wordPending = []) :
    engineStep choice s = s.commit j.tg := by
  simp [engineStep, State.halted, hf, hj, pick_eq_none.2 framesDone, pick_eq_none.2 wordsDone]

/-- A step of the engine on an unhalted job: a frame cell, or a word once no frame cell is pending, or the commit (rules R131 to R133). -/
theorem engineStep_job_cases (choice : Nat) :
    (∃ n, n ∈ j.framePending ∧ engineStep choice s = engineFrameWrite j n s) ∨
    (j.framePending = [] ∧ ∃ p, p ∈ j.wordPending ∧ engineStep choice s = engineWordWrite j p s) ∨
    (j.framePending = [] ∧ j.wordPending = [] ∧ engineStep choice s = s.commit j.tg) := by
  by_cases hframe : j.framePending = []
  · by_cases hword : j.wordPending = []
    · exact .inr (.inr ⟨hframe, hword, engineStep_commit hf hj hframe hword⟩)
    · obtain ⟨p, hp, hpick⟩ := exists_pick_eq_some hword choice
      exact .inr (.inl ⟨hframe, p, hp, engineStep_word hf hj hframe hpick⟩)
  · obtain ⟨n, hn, hpick⟩ := exists_pick_eq_some hframe choice
    exact .inl ⟨n, hn, engineStep_frame hf hj hpick⟩

end

/-- Settles O41: every choice is a pending cell and every pending cell is some choice, and the write is of that cell. -/
theorem engineWritesAnyPendingFrameCell : Obligations.EngineWritesAnyPendingFrameCell := by
  intro s j hf hj hpending wrote
  have hwrote : ∀ n, wrote n (engineFrameWrite j n s) := fun n =>
    ⟨Memory.read_write_same _ _ _, fun m hm => Memory.read_write_other _ _ hm,
      ⟨_, rfl, rfl, rfl, rfl, fun _ => mem_without⟩, rfl⟩
  refine ⟨fun choice => ?_, fun n hn => ?_⟩
  · obtain ⟨n, hn, hpick⟩ := exists_pick_eq_some hpending choice
    exact ⟨n, hn, engineStep_frame hf hj hpick ▸ hwrote n⟩
  · obtain ⟨choice, hpick⟩ := exists_pick hn
    exact ⟨choice, engineStep_frame hf hj hpick ▸ hwrote n⟩

/-- Settles O42: every choice is a pending word and every pending word is some choice, and the write is of that word. -/
theorem engineWritesAnyPendingWord : Obligations.EngineWritesAnyPendingWord := by
  intro s j hf hj framesDone hpending wrote
  have hwrote : ∀ p, wrote p (engineWordWrite j p s) := fun p =>
    ⟨Memory.read_write_same _ _ _, fun a ha => Memory.read_write_other _ _ ha,
      ⟨_, rfl, rfl, rfl, framesDone, fun _ => mem_without⟩, rfl⟩
  refine ⟨fun choice => ?_, fun p hp => ?_⟩
  · obtain ⟨p, hp, hpick⟩ := exists_pick_eq_some hpending choice
    exact ⟨p, hp, engineStep_word hf hj framesDone hpick ▸ hwrote p⟩
  · obtain ⟨choice, hpick⟩ := exists_pick hp
    exact ⟨choice, engineStep_word hf hj framesDone hpick ▸ hwrote p⟩

/-- Settles O43: the step is the commit's one write. -/
theorem commitPublishesTheJob : Obligations.CommitPublishesTheJob :=
  fun _ _ _ hf hj framesDone wordsDone => engineStep_commit hf hj framesDone wordsDone

/-! ### From the accept to the commit -/

/-- How many writes a job has still to make. -/
def Job.pending (j : Job) : Nat := j.framePending.length + j.wordPending.length

/-- `j'` is the job `j` with some of its writes made. -/
structure Job.SameTask (j j' : Job) : Prop where
  frame : j'.frame = j.frame
  tg    : j'.tg = j.tg

/-- An unhalted block of the invariant with job `j` in flight and the moves `moves` scripted. -/
structure State.Encodes (s : State) (j : Job) (moves : List Move) : Prop where
  inv      : s.Inv
  clear    : s.fault = none
  job      : s.job = some j
  schedule : s.schedule = moves

/-- A scripted step of the engine (rule R52). -/
theorem State.Encodes.step {s : State} {j : Job} {choice : Nat} {moves : List Move}
    (h : s.Encodes j (.engine choice :: moves)) :
    step s = .next (engineStep choice { s with schedule := moves }) ∧ State.Encodes { s with schedule := moves } j moves :=
  ⟨step_scripted h.inv.config h.schedule, h.inv.of_fields rfl rfl rfl rfl rfl rfl rfl, h.clear, h.job, rfl⟩

/-- A step of the engine makes one write of a job that has any left (rules R131, R132). -/
theorem State.Encodes.engineStep {s : State} {j : Job} {moves : List Move} (h : s.Encodes j moves) (choice : Nat) {n : Nat}
    (hn : j.pending = n + 1) :
    ∃ j', (engineStep choice s).Encodes j' moves ∧ (engineStep choice s).cfg = s.cfg ∧ j.SameTask j' ∧ j'.pending = n := by
  have hj := h.inv.job j h.job
  rcases engineStep_job_cases h.clear h.job choice with ⟨m, hm, he⟩ | ⟨framesDone, p, hp, he⟩ | ⟨framesDone, wordsDone, -⟩
  · have hlen := length_without hj.frameNodup hm
    rw [he]
    refine ⟨_, ⟨h.inv.frameWrite h.job hm, h.clear, rfl, h.schedule⟩, rfl, ⟨rfl, rfl⟩, ?_⟩
    simp only [Job.pending] at hn ⊢
    omega
  · have hlen := length_without hj.wordNodup hp
    rw [he]
    refine ⟨_, ⟨h.inv.wordWrite h.job framesDone hp, h.clear, rfl, h.schedule⟩, rfl, ⟨rfl, rfl⟩, ?_⟩
    simp only [Job.pending] at hn ⊢
    omega
  · simp [Job.pending, framesDone, wordsDone] at hn

/-- As many scripted steps of the engine as writes are left, or fewer, make that many writes, whatever the choices. -/
theorem State.Encodes.run {moves : List Move} (choices : List Nat) {s : State} {j : Job}
    (h : s.Encodes j (choices.map .engine ++ moves)) (hle : choices.length ≤ j.pending) :
    ∃ t j', runSteps choices.length s = .next t ∧ t.Encodes j' moves ∧ t.cfg = s.cfg ∧ j.SameTask j' ∧
      j'.pending + choices.length = j.pending := by
  induction choices generalizing s j with
  | nil => exact ⟨s, j, rfl, h, rfl, ⟨rfl, rfl⟩, rfl⟩
  | cons choice choices ih =>
    rw [List.length_cons] at hle ⊢
    obtain ⟨n, hn⟩ : ∃ n, j.pending = n + 1 := ⟨j.pending - 1, by omega⟩
    obtain ⟨hstep, hs⟩ := h.step
    obtain ⟨j₁, h₁, hcfg₁, htask₁, hpending₁⟩ := hs.engineStep choice hn
    obtain ⟨t, j', hrun, ht, hcfg, htask, hpending⟩ := ih h₁ (by omega)
    exact ⟨t, j', (runSteps_succ hstep _).trans hrun, ht, hcfg.trans hcfg₁,
      ⟨htask.frame.trans htask₁.frame, htask.tg.trans htask₁.tg⟩, by omega⟩

/-- A job with no write left commits at its next step (rule R133). -/
theorem State.Encodes.commit {s : State} {j : Job} {choice : Nat} {moves : List Move}
    (h : s.Encodes j (.engine choice :: moves)) (hdone : j.pending = 0) :
    Machine.step s = .next (State.commit { s with schedule := moves } j.tg) ∧
      (∀ n, n < s.cfg.frameBytes → s.frameRead n = some (j.frame.getD n 0#8)) ∧
      ∀ p : WordPos, p.inRange s.cfg = true → s.bufRead j.tg p = some (enc s.cfg j.frame p) := by
  obtain ⟨hframe, hword⟩ := Nat.add_eq_zero_iff.1 hdone
  have framesDone := List.length_eq_zero_iff.1 hframe
  have wordsDone := List.length_eq_zero_iff.1 hword
  obtain ⟨hstep, hs⟩ := h.step
  have hj := h.inv.job j h.job
  exact ⟨hstep.trans (congrArg _ (engineStep_commit hs.clear hs.job framesDone wordsDone)),
    fun n hn => hj.frameCells n hn (by simp [framesDone]), fun p hp => hj.wordCells p hp (by simp [wordsDone])⟩

/-- Settles O44: every step before the last is a write, since that many are pending, and the last is the commit. -/
theorem jobCommitsAfterItsSteps : Obligations.JobCommitsAfterItsSteps := by
  intro s j choices hi hf hj hframes hwords hs
  have hpending : j.pending = s.cfg.frameBytes + 8 * s.cfg.rowCount * s.cfg.wordsPerRow := by
    rw [Job.pending, hframes, hwords]
  rw [← hpending]
  refine ⟨fun hlt => ?_, fun hlen => ?_⟩
  · have h : s.Encodes j (choices.map .engine ++ []) := ⟨hi, hf, hj, by rw [List.append_nil, hs]⟩
    obtain ⟨t, j', hrun, ht, -⟩ := h.run choices (by omega)
    exact ⟨t, hrun, by simp [ht.job], by simp [ht.inv.busyJob, ht.job], ht.clear⟩
  · obtain ⟨writes, last, rfl⟩ := (List.eq_nil_or_concat choices).resolve_left (List.ne_nil_of_length_eq_add_one hlen)
    have hwrites : writes.length = j.pending := by simpa using hlen
    have h : s.Encodes j (writes.map .engine ++ [.engine last]) := ⟨hi, hf, hj, by simpa using hs⟩
    obtain ⟨t, j', hrun, ht, hcfg, htask, hleft⟩ := h.run writes (by omega)
    obtain ⟨hstep, hbytes, hcells⟩ := ht.commit (by omega)
    rw [hcfg, htask.frame] at hbytes
    rw [hcfg, htask.tg, htask.frame] at hcells
    refine ⟨State.commit { t with schedule := [] } j'.tg, ?_, rfl, rfl, rfl, ht.clear, fun hG => ?_, hbytes, hcells⟩
    · rw [List.length_concat, runSteps_add hrun]
      exact runSteps_succ hstep 0
    · rw [State.commit_curGen, if_pos (hcfg ▸ hG), htask.tg]

/-! ### The free engine -/

/-- A step of the engine on an unhalted job leaves another job, or none. -/
theorem engineStep_job_ne {s : State} {j : Job} (hf : s.fault = none) (hj : s.job = some j) (choice : Nat) :
    (engineStep choice s).job ≠ some j := by
  intro hsame
  rcases engineStep_job_cases hf hj choice with ⟨n, hn, he⟩ | ⟨-, p, hp, he⟩ | ⟨-, -, he⟩ <;> rw [he] at hsame
  · have hpending := congrArg Job.framePending (Option.some.inj hsame)
    exact (mem_without.1 (hpending ▸ hn)).2 rfl
  · have hpending := congrArg Job.wordPending (Option.some.inj hsame)
    exact (mem_without.1 (hpending ▸ hp)).2 rfl
  · cases hsame

/-- With a job in flight the engine is enabled (rule R52). -/
theorem State.engine_mem_enabled {s : State} {j : Job} (hf : s.fault = none) (hj : s.job = some j) :
    Agent.engine ∈ s.enabled := by
  simp [State.enabled, State.halted, hf, hj]

/-- With a job in flight the free scheduler chooses the engine, or a port while there is patience left (rules R52, R134). -/
theorem State.chosenAgent_cases {s : State} {j : Job} (hf : s.fault = none) (hj : s.job = some j) :
    s.chosenAgent = some .engine ∨ ∃ p, s.chosenAgent = some (.port p) ∧ 0 < s.patience := by
  have hmem := s.engine_mem_enabled hf hj
  rw [State.chosenAgent]
  split
  · rename_i he
    simp [he] at hmem
  · rename_i a he
    rw [he, List.mem_singleton] at hmem
    exact .inl (by rw [hmem])
  · rename_i a b rest he
    by_cases hp : s.patience = 0
    · exact .inl (by simp [hj, hp])
    · have hlt : Config.freeAgent s.tick % (rest.length + 2) < (a :: b :: rest).length := Nat.mod_lt _ (by omega)
      rw [if_neg (fun h => hp h.2), List.getElem?_eq_getElem hlt]
      cases (a :: b :: rest)[Config.freeAgent s.tick % (rest.length + 2)] with
      | engine => exact .inl rfl
      | port p => exact .inr ⟨p, rfl, by omega⟩

/-- A port's step leaves the script and the patience as they are. -/
theorem portStep_keeps_scheduler {p : Port} {s t : State} (h : portStep p s = .next t) :
    t.schedule = s.schedule ∧ t.patience = s.patience := by
  rcases portStep_cases h with ⟨-, rfl⟩ | ⟨-, tr, rest, -, hrun⟩
  · exact ⟨rfl, rfl⟩
  · rcases runCommand_cases hrun with ⟨-, -, rfl⟩ | ⟨i, -, hexec⟩
    · exact ⟨rfl, rfl⟩
    · obtain ⟨-, hschedule, -, hpatience⟩ := exec_keeps_scheduler hexec
      exact ⟨hschedule, hpatience⟩

/-- A free step with a job in flight is the engine's, which changes the job, or uses up some patience (rule R134). -/
theorem State.Encodes.freeStep {s : State} {j : Job} (h : s.Encodes j []) :
    ∃ t, Machine.step s = .next t ∧ (t.job ≠ some j ∨ t.schedule = [] ∧ t.patience < s.patience) := by
  rw [step_unscripted h.inv.config h.schedule, Machine.freeStep, h.clear]
  rcases s.chosenAgent_cases h.clear h.job with hc | ⟨p, hc, hp⟩ <;> rw [hc]
  · exact ⟨_, rfl, .inl (engineStep_job_ne (s := s.advance .engine) h.clear h.job _)⟩
  · obtain ⟨t, ht⟩ := portStep_next p (s.advance (.port p))
    obtain ⟨hschedule, hpatience⟩ := portStep_keeps_scheduler ht
    have hadvance : (s.advance (.port p)).patience = s.patience - 1 := by simp [h.job]
    exact ⟨t, ht, .inr ⟨hschedule.trans h.schedule, by omega⟩⟩

/-- Settles O48, by strong induction on the patience: a step that leaves the job as it is uses some up. -/
theorem engineIsNotStarved : Obligations.EngineIsNotStarved := by
  intro s j
  induction hpat : s.patience using Nat.strong_induction_on generalizing s with
  | _ k ih =>
    intro hi hs hf hj
    obtain ⟨t, hstep, hcase⟩ := State.Encodes.freeStep ⟨hi, hf, hj, hs⟩
    by_cases hdone : t.fault ≠ none ∨ t.job ≠ some j
    · exact ⟨1, t, by omega, runSteps_succ hstep 0, hdone⟩
    · obtain ⟨hclear, hjob⟩ : t.fault = none ∧ t.job = some j := by simpa using hdone
      obtain ⟨hschedule, hless⟩ := hcase.resolve_left (not_not_intro hjob)
      obtain ⟨n, u, hn, hrun, hend⟩ :=
        ih t.patience (hpat ▸ hless) t rfl (stepKeepsTheInvariant s t hi hstep) hschedule hclear hjob
      exact ⟨n + 1, u, by omega, (runSteps_succ hstep n).trans hrun, hend⟩

/-! ### The committed frame -/

/-- A step keeps the committed frame, or commits its job's, or is a reset (rules R133, R135, R210). -/
theorem StepEffect.holds {s t : State} (he : StepEffect s t) (hi : s.Inv) {f : List Byte} (hf : s.Holds f) :
    t.Holds f ∨ (∃ j, s.job = some j ∧ t.job = none ∧ t.Holds j.frame) ∨ t.ready = false := by
  cases he with
  | idle hu => exact .inl (hu.holds hf)
  | response hu w => exact .inl ((hu.holds hf).of_fields rfl rfl rfl rfl rfl)
  | fault hu => exact .inl ((hu.holds hf).of_fields rfl rfl rfl rfl rfl)
  | @accept u tr _ _ hu _ _ _ _ _ _ free =>
    have hjob : u.retire.job = none := by simpa [free, hu.job] using hi.busyJob
    exact .inl (((hu.holds hf).of_fields (t := u.retire) rfl rfl rfl rfl rfl).startJob hjob tr.payload)
  | frameWrite hu _ _ job => exact .inl ((hu.holds hf).frameWrite (hu.job.trans job) _)
  | wordWrite hu _ _ job _ pending =>
    exact .inl ((hu.holds hf).wordWrite (hu.job.trans job) (hu.cfg ▸ (hi.job _ job).wordRange _ pending))
  | commit hu _ _ job framesDone wordsDone =>
    exact .inr (.inl ⟨_, job, rfl, (hu.inv hi).commit_holds (hu.job.trans job) framesDone wordsDone⟩)
  | reset => exact .inr (.inr rfl)

/-- The step that sets READY is the commit of its job's frame (rules R133, R135). -/
theorem StepEffect.first_commit {s t : State} (he : StepEffect s t) (hi : s.Inv) (hbefore : s.ready = false)
    (hafter : t.ready = true) : ∃ j, s.job = some j ∧ t.job = none ∧ t.Holds j.frame := by
  cases he with
  | commit hu _ _ job framesDone wordsDone =>
    exact ⟨_, job, rfl, (hu.inv hi).commit_holds (hu.job.trans job) framesDone wordsDone⟩
  | reset => cases hafter
  | idle hu | response hu | fault hu | accept hu | frameWrite hu | wordWrite hu => simp [hu.ready, hbefore] at hafter

/-- Settles O52: the two lemmas above, for the effect of the step. -/
theorem lastCommitWins : Obligations.LastCommitWins :=
  fun _ _ hi hstep => ⟨fun _ _ hf => (step_effect hstep).holds hi hf, (step_effect hstep).first_commit hi⟩

end Sys2Proof.Machine
end

section
/-! Proofs of the statements of 41_read_port.md: what each read answers in a state that has the value, the status word bit by bit, and
what a read returns while a job is in flight. -/

namespace Sys2Proof.Machine

/-! ### The cells -/

/-- RDWORD's range check, field by field (rules R141, R182). -/
theorem rdwordInRange_iff {c : Config} {gen : BitVec 1} {row idx : BitVec 12} :
    rdwordInRange c gen row idx = true ↔
      gen.toNat < c.generations ∧ row.toNat < c.rowCount ∧ idx.toNat < c.wordsPerRow := by
  simp [rdwordInRange, and_assoc]

/-- RDFRAME's range check, field by field (rules R145, R182). -/
theorem rdframeInRange_iff {c : Config} {row col : BitVec 12} :
    rdframeInRange c row col = true ↔ row.toNat < c.rowCount ∧ col.toNat < c.colCount := by
  simp [rdframeInRange]

/-- RDFRAME in range of a ready block responds with the byte of its cell, zero-extended (rules R97, R145). -/
theorem execRdframe_responds {s : State} {row col : BitVec 12} {v : Byte} (hrange : rdframeInRange s.cfg row col = true)
    (hready : s.ready = true) (hcell : s.frameRead (frameIndex s.cfg row.toNat col.toNat) = some v) :
    execRdframe row col s = .next (s.respond (v.setWidth 32)) := by
  simp [execRdframe, hrange, State.respondCell, hready, hcell]

/-- Settles O23: past the range check and with a value in the cell, the end of the read is the response. -/
theorem rdwordRespondsWithTheCell : Obligations.RdwordRespondsWithTheCell :=
  fun _ _ _ _ s w hgen hrow hidx hready hcell =>
    ⟨_, execRdword_responds (rdwordInRange_iff.2 ⟨hgen, hrow, hidx⟩) hready hcell, s.respond_responds w⟩

/-- Settles O24: past the range check and with a byte in the cell, the end of the read is the response. -/
theorem rdframeRespondsWithThePixel : Obligations.RdframeRespondsWithThePixel :=
  fun _ _ s v hrow hcol hready hcell =>
    ⟨_, execRdframe_responds (rdframeInRange_iff.2 ⟨hrow, hcol⟩) hready hcell, s.respond_responds (v.setWidth 32)⟩

/-! ### The status word -/

/-- CUR_GEN, as it reads, is bit 2 of the status word (rule R31). -/
theorem State.statusWord_getLsbD_two (s : State) : s.statusWord.getLsbD 2 = s.visibleGen.getLsbD 0 := by
  simp [State.statusWord]

/-- Above CUR_GEN the status word is 0 (rule R31). -/
theorem State.statusWord_getLsbD_of_ge (s : State) {i : Nat} (hi : 3 ≤ i) : s.statusWord.getLsbD i = false := by
  have hgen : s.visibleGen.getLsbD (i - 2) = false := BitVec.getLsbD_of_ge _ _ (by omega)
  have hbusy : (BitVec.ofBool s.busy).getLsbD (i - 1) = false := BitVec.getLsbD_of_ge _ _ (by omega)
  have hready : (BitVec.ofBool s.ready).getLsbD i = false := BitVec.getLsbD_of_ge _ _ (by omega)
  simp [State.statusWord, hgen, hbusy, hready]

/-- With one generation CUR_GEN reads 0 (rules R27, R31). -/
theorem State.visibleGen_one {s : State} (hG : s.cfg.generations = 1) : s.visibleGen = 0#1 := by
  simp [State.visibleGen, hG]

/-- With two generations CUR_GEN reads as it is (rules R27, R31). -/
theorem State.visibleGen_two {s : State} (hG : s.cfg.generations = 2) : s.visibleGen = s.curGen := if_pos hG

/-- Settles O25: the answer is the status word, read bit by bit. -/
theorem rdstatusRespondsWithTheFlags : Obligations.RdstatusRespondsWithTheFlags := by
  intro s
  refine ⟨_, s.statusWord, rfl, s.respond_responds _, s.statusWord_getLsbD_zero, s.statusWord_getLsbD_one,
    fun hG => ?_, fun hG => ?_, fun _ => s.statusWord_getLsbD_of_ge⟩
  · rw [s.statusWord_getLsbD_two, State.visibleGen_one hG]; rfl
  · rw [s.statusWord_getLsbD_two, State.visibleGen_two hG]

/-! ### The frame of a read -/

/-- Settles O29: of the four ends of a command, the two that are neither a response nor a fault are ENCODE's. -/
theorem readsHaveNoOtherEffect : Obligations.ReadsHaveNoOtherEffect := by
  intro i s t hread hexec
  rcases exec_cases hexec with ⟨w, rfl⟩ | ⟨code, rfl⟩ | ⟨len, hencode, -⟩ | ⟨len, hencode, -⟩
  · exact .inl ⟨w, s.respond_responds w⟩
  · exact .inr ⟨code, s.raise_faults code _⟩
  · exact absurd hencode (hread len)
  · exact absurd hencode (hread len)

/-! ### Reads while a job may be in flight -/

/-- A word of the current generation is the committed frame's or, where the job in flight has written it, the job's (rules R55, R142). -/
theorem State.Holds.bufRead_curGen_old_or_new {s : State} {f : List Byte} (h : s.Holds f) {p : WordPos} (hp : p.inRange s.cfg = true) :
    s.bufRead s.curGen p = some (enc s.cfg f p) ∨
      ∃ j, s.job = some j ∧ j.tg = s.curGen ∧ p ∉ j.wordPending ∧ s.bufRead s.curGen p = some (enc s.cfg j.frame p) := by
  cases hjob : s.job with
  | none => exact .inl ((h.of_idle hjob).2 p hp)
  | some j =>
    have hcell := (h.of_job hjob).2 p hp
    by_cases hwrote : j.tg = s.curGen ∧ p ∉ j.wordPending
    · exact .inr ⟨j, rfl, hwrote.1, hwrote.2, by rw [hcell, if_pos hwrote]⟩
    · exact .inl (by rw [hcell, if_neg hwrote])

/-- A byte of the frame copy is the committed frame's or, where the job in flight has written it, the job's (rules R53, R146). -/
theorem State.Holds.frameRead_old_or_new {s : State} {f : List Byte} (h : s.Holds f) {n : Nat} (hn : n < s.cfg.frameBytes) :
    s.frameRead n = some (f.getD n 0#8) ∨
      ∃ j, s.job = some j ∧ n ∉ j.framePending ∧ s.frameRead n = some (j.frame.getD n 0#8) := by
  cases hjob : s.job with
  | none => exact .inl ((h.of_idle hjob).1 n hn)
  | some j =>
    have hcell := (h.of_job hjob).1 n hn
    by_cases hpending : n ∈ j.framePending
    · exact .inl (by rw [hcell, if_pos hpending])
    · exact .inr ⟨j, rfl, hpending, by rw [hcell, if_neg hpending]⟩

/-- With two generations no job in flight writes the current one (rules R57, R136). -/
theorem State.Inv.target_ne_curGen {s : State} (hi : s.Inv) (hG : s.cfg.generations = 2) {j : Job} (hjob : s.job = some j) :
    j.tg ≠ s.curGen :=
  (hi.job j hjob).target ▸ targetGen_ne hG s.curGen

/-- Settles O53: the response is the cell, and the job's alternative needs a job that targets the current generation. -/
theorem readsSeeOldOrNewWords : Obligations.ReadsSeeOldOrNewWords := by
  intro s f plane row idx hi hready hf hrow hidx
  have hrange := rdwordInRange_iff.2 ⟨hi.curGen_lt, hrow, hidx⟩
  have hpos : (wordPosOf plane row idx).inRange s.cfg = true := (WordPos.inRange_iff _ _).2 ⟨plane.isLt, hrow, hidx⟩
  rcases hf.bufRead_curGen_old_or_new hpos with hold | ⟨j, hjob, htarget, hwrote, hnew⟩
  · exact ⟨_, _, execRdword_responds hrange hready hold, s.respond_responds _, .inl rfl, fun _ => rfl⟩
  · refine ⟨_, _, execRdword_responds hrange hready hnew, s.respond_responds _, .inr ⟨j, hjob, htarget, hwrote, rfl⟩, ?_⟩
    rintro (htwo | hnone)
    · exact absurd htarget (hi.target_ne_curGen htwo hjob)
    · simp [hjob] at hnone

/-- Settles O54: the response is the cell, old or new. -/
theorem frameReadsAfterReadyRespond : Obligations.FrameReadsAfterReadyRespond := by
  intro s f row col _ hready hf hrow hcol
  have hrange := rdframeInRange_iff.2 ⟨hrow, hcol⟩
  rcases hf.frameRead_old_or_new (frameIndex_lt s.cfg hrow hcol) with hold | ⟨j, hjob, hwrote, hnew⟩
  · exact ⟨_, _, execRdframe_responds hrange hready hold, s.respond_responds _, .inl rfl⟩
  · exact ⟨_, _, execRdframe_responds hrange hready hnew, s.respond_responds _, .inr ⟨j, hjob, hwrote, rfl⟩⟩

end Sys2Proof.Machine
end

section
/-! Proofs of the statements of 42_delay_lut.md: the check of the delay table, what a table that passes it satisfies, and its read. -/

namespace Sys2Proof.Machine

/-- The ratio check of two consecutive delay values, bound by bound (rule R161). -/
theorem delayRatioOk_iff {lo hi : Word} :
    delayRatioOk lo hi = true ↔ 2 * lo.toNat ≤ hi.toNat ∧ 2 * hi.toNat ≤ 7 * lo.toNat := by
  simp [delayRatioOk]

/-- The table check asks the first entry to be nonzero and every consecutive pair to pass the ratio check (rule R161). -/
theorem delayTableOk_iff {d : Vector Word 8} :
    delayTableOk d = true ↔ 1 ≤ d[0].toNat ∧ ∀ p : Fin 7, delayRatioOk d[p.castSucc] d[p.succ] = true := by
  simp [delayTableOk, Fin.forall_fin_succ, and_assoc]

section
variable {d : Vector Word 8} (h : delayTableOk d = true)
include h

/-- Each entry of a well-formed table is between 2 and 3.5 times the one before it (rule R161). -/
theorem delay_ratio (p : Fin 7) :
    2 * d[p.castSucc].toNat ≤ d[p.succ].toNat ∧ 2 * d[p.succ].toNat ≤ 7 * d[p.castSucc].toNat :=
  delayRatioOk_iff.1 ((delayTableOk_iff.1 h).2 p)

/-- No entry of a well-formed table is 0: the first is not, and an entry is at least twice the one before it. -/
theorem delay_pos (p : Fin 8) : 1 ≤ d[p].toNat := by
  induction p using Fin.induction with
  | zero => exact (delayTableOk_iff.1 h).1
  | succ p ih =>
    obtain ⟨hlo, -⟩ := delay_ratio h p
    omega

/-- The entries of a well-formed table increase strictly (rule R162): doubling a nonzero entry increases it. -/
theorem delay_strictMono : StrictMono fun p : Fin 8 => d[p].toNat := by
  refine Fin.strictMono_iff_lt_succ.2 fun p => ?_
  obtain ⟨hlo, -⟩ := delay_ratio h p
  have hpos := delay_pos h p.castSucc
  omega

/-- Entry `p` of a well-formed table is between `2 ^ p` and `3.5 ^ p` times the first (rule R162). -/
theorem delay_bounds (p : Fin 8) :
    2 ^ p.val * d[0].toNat ≤ d[p].toNat ∧ 2 ^ p.val * d[p].toNat ≤ 7 ^ p.val * d[0].toNat := by
  induction p using Fin.induction with
  | zero => simp
  | succ p ih =>
    obtain ⟨hlo, hhi⟩ := delay_ratio h p
    obtain ⟨ihlo, ihhi⟩ := ih
    constructor
    · calc 2 ^ (p.val + 1) * d[0].toNat = 2 * (2 ^ p.val * d[0].toNat) := by ring
        _ ≤ 2 * d[p.castSucc].toNat := Nat.mul_le_mul_left 2 ihlo
        _ ≤ d[p.succ].toNat := hlo
    · calc 2 ^ (p.val + 1) * d[p.succ].toNat = 2 ^ p.val * (2 * d[p.succ].toNat) := by ring
        _ ≤ 2 ^ p.val * (7 * d[p.castSucc].toNat) := Nat.mul_le_mul_left _ hhi
        _ = 7 * (2 ^ p.val * d[p.castSucc].toNat) := by ring
        _ ≤ 7 * (7 ^ p.val * d[0].toNat) := Nat.mul_le_mul_left 7 ihhi
        _ = 7 ^ (p.val + 1) * d[0].toNat := by ring

end

/-- A configuration whose table fails the check is not well formed (rules R6, R161). -/
theorem wf_ne_true_of_delayTable {c : Config} (h : delayTableOk c.delayLut = false) : c.wf ≠ true := by
  intro hw
  obtain ⟨-, -, -, htable⟩ := (config_wf_iff c).1 hw
  exact Bool.false_ne_true (h.symm.trans htable)

/-- Settles O6: the check asks only the first entry to be nonzero, and the ratios carry that to the others; the upper bound is the
width of a word. -/
theorem delayTableCheckIsTheRule : Obligations.DelayTableCheckIsTheRule := by
  refine ⟨fun d => ⟨fun h => ⟨fun p => ⟨delay_pos h p, Nat.le_sub_one_of_lt d[p].isLt⟩, delay_ratio h⟩, ?_⟩,
    fun s h => step_illFormed (wf_ne_true_of_delayTable h)⟩
  rintro ⟨hentry, hratio⟩
  exact delayTableOk_iff.2 ⟨(hentry 0).1, fun p => delayRatioOk_iff.2 (hratio p)⟩

/-- Settles O7: strict monotonicity, and the two bounds on entry `p` at the last one. -/
theorem delayValuesIncreaseStrictly : Obligations.DelayValuesIncreaseStrictly :=
  fun _ h => ⟨fun _ _ hpq => delay_strictMono h hpq, delay_bounds h 7⟩

/-- The value RDDELAY reads is the configured table's entry of the phase (rules R30, R160). -/
theorem State.delayLut_getElem? (s : State) (phase : BitVec 3) : s.cfg.delayLut[phase.toNat]? = some (s.lut phase) :=
  Vector.getElem?_eq_getElem phase.isLt

/-- Settles O26: RDDELAY's one end is the response with the value it reads, whatever the state. -/
theorem rddelayRespondsWithTheEntry : Obligations.RddelayRespondsWithTheEntry :=
  fun phase s => ⟨_, s.lut phase, s.delayLut_getElem? phase, rfl, s.respond_responds _⟩

end Sys2Proof.Machine
end

section
/-! Proofs of the statements of 60_exceptions.md: when a read or an ENCODE faults, the cause behind every recorded fault, and what a
halted and an unhalted block answer. -/

namespace Sys2Proof.Machine

/-! ### Reads of a storage cell -/

/-- How RDWORD and RDFRAME end (rules R141, R145): E_RANGE out of range, else the end of a read of `cell`. -/
def State.cellRead (s : State) (inRange : Bool) (cell : Option Word) (cmd : Word) : State :=
  if inRange then s.respondCell cell cmd else s.raise .range cmd

theorem exec_rdword (gen : BitVec 1) (plane : BitVec 3) (row idx : BitVec 12) (s : State) :
    exec (.rdword gen plane row idx) s =
      .next (s.cellRead (rdwordInRange s.cfg gen row idx) (s.bufRead gen (wordPosOf plane row idx))
        (encode (.rdword gen plane row idx))) :=
  (apply_ite _ _ _ _).symm

theorem exec_rdframe (row col : BitVec 12) (s : State) :
    exec (.rdframe row col) s =
      .next (s.cellRead (rdframeInRange s.cfg row col)
        ((s.frameRead (frameIndex s.cfg row.toNat col.toNat)).map (·.setWidth 32)) (encode (.rdframe row col))) :=
  (apply_ite _ _ _ _).symm

/-- RDWORD is out of range when one of its fields is (rules R141, R182). -/
theorem rdwordInRange_eq_false {c : Config} {gen : BitVec 1} {row idx : BitVec 12} :
    rdwordInRange c gen row idx = false ↔
      c.generations ≤ gen.toNat ∨ c.rowCount ≤ row.toNat ∨ c.wordsPerRow ≤ idx.toNat := by
  rw [← Bool.not_eq_true, rdwordInRange_iff]
  omega

/-- RDFRAME is out of range when one of its fields is (rules R145, R182). -/
theorem rdframeInRange_eq_false {c : Config} {row col : BitVec 12} :
    rdframeInRange c row col = false ↔ c.rowCount ≤ row.toNat ∨ c.colCount ≤ col.toNat := by
  rw [← Bool.not_eq_true, rdframeInRange_iff]
  omega

/-- The fault entry records the code it is given and no other. -/
theorem State.raise_faults_iff (s : State) {code code' : FaultCode} {cmd : Word} :
    Faults s (s.raise code cmd) code' cmd ↔ code = code' := by
  refine ⟨fun h => ?_, fun h => h ▸ s.raise_faults code cmd⟩
  simpa using h.fault

section
variable (s : State) (inRange : Bool) (cell : Option Word) (cmd : Word)

/-- Everything such a read can do: E_RANGE, else E_NOT_READY for one of its two causes, else the response (rule R187). -/
theorem State.cellRead_cases :
    (inRange = false ∧ s.cellRead inRange cell cmd = s.raise .range cmd) ∨
    (inRange = true ∧ (s.ready = false ∨ cell = none) ∧ s.cellRead inRange cell cmd = s.raise .notReady cmd) ∨
    (inRange = true ∧ s.ready = true ∧ ∃ w, cell = some w ∧ s.cellRead inRange cell cmd = s.respond w) := by
  cases inRange with
  | false => exact .inl ⟨rfl, rfl⟩
  | true =>
    rcases s.respondCell_cases cell cmd with ⟨hready, w, hcell, h⟩ | ⟨hcause, h⟩
    · exact .inr (.inr ⟨rfl, hready, w, hcell, h⟩)
    · exact .inr (.inl ⟨rfl, hcause, h⟩)

/-- A read of a cell raises E_RANGE exactly out of range (rule R182). -/
theorem State.cellRead_faults_range :
    inRange = false ↔ Faults s (s.cellRead inRange cell cmd) .range cmd := by
  rcases s.cellRead_cases inRange cell cmd with ⟨hout, h⟩ | ⟨hin, -, h⟩ | ⟨hin, -, w, -, h⟩ <;> rw [h]
  · exact iff_of_true hout (s.raise_faults _ _)
  · simp [hin, s.raise_faults_iff]
  · exact iff_of_false (by simp [hin]) (s.respond_responds w).not_faults

/-- In range, a read of a cell raises E_NOT_READY exactly when READY is 0 or the cell holds no value (rule R183). -/
theorem State.cellRead_faults_notReady (hin : inRange = true) :
    s.ready = false ∨ cell = none ↔ Faults s (s.cellRead inRange cell cmd) .notReady cmd := by
  rcases s.cellRead_cases inRange cell cmd with ⟨hout, -⟩ | ⟨-, hcause, h⟩ | ⟨-, hready, w, hcell, h⟩
  · simp [hin] at hout
  · exact iff_of_true hcause (h ▸ s.raise_faults _ _)
  · exact iff_of_false (by simp [hready, hcell]) (h ▸ (s.respond_responds w).not_faults)

/-- A read of a cell that records a fault was out of range, or had no value to answer. -/
theorem State.cellRead_record {r : FaultRecord} (clear : s.fault = none)
    (record : (s.cellRead inRange cell cmd).fault = some r) :
    (r.code = .range ∧ inRange = false) ∨ (r.code = .notReady ∧ (s.ready = false ∨ cell = none)) := by
  rcases s.cellRead_cases inRange cell cmd with ⟨hout, h⟩ | ⟨-, hcause, h⟩ | ⟨-, -, w, -, h⟩ <;> rw [h] at record
  · obtain rfl := Option.some.inj record
    exact .inl ⟨rfl, hout⟩
  · obtain rfl := Option.some.inj record
    exact .inr ⟨rfl, hcause⟩
  · simp [clear] at record

end

/-- Settles O27: both reads end as `cellRead` does, and their range checks fail field by field. -/
theorem rangeFaultExactlyOutOfRange : Obligations.RangeFaultExactlyOutOfRange :=
  ⟨fun gen plane row idx s => ⟨_, exec_rdword gen plane row idx s,
      rdwordInRange_eq_false.symm.trans (s.cellRead_faults_range _ _ _)⟩,
    fun row col s => ⟨_, exec_rdframe row col s, rdframeInRange_eq_false.symm.trans (s.cellRead_faults_range _ _ _)⟩⟩

/-- Settles O28: past the range check both reads end as `cellRead` does; zero extension makes no value of none. -/
theorem notReadyFaultExactlyWithoutAValue : Obligations.NotReadyFaultExactlyWithoutAValue := by
  refine ⟨fun gen plane row idx s hgen hrow hidx => ⟨_, exec_rdword gen plane row idx s, ?_⟩,
    fun row col s hrow hcol => ⟨_, exec_rdframe row col s, ?_⟩⟩
  · exact s.cellRead_faults_notReady _ _ _ (rdwordInRange_iff.2 ⟨hgen, hrow, hidx⟩)
  · rw [← s.cellRead_faults_notReady _ _ _ (rdframeInRange_iff.2 ⟨hrow, hcol⟩), Option.map_eq_none_iff, frameIndex]

/-! ### ENCODE -/

/-- A frame is not whole when `LEN` or the number of bytes carried is not FRAME_BYTES (rules R69, R184). -/
theorem frameSizeOk_eq_false {c : Config} {len : BitVec 24} {payload : List Byte} :
    frameSizeOk c len payload = false ↔ len.toNat ≠ c.frameBytes ∨ payload.length ≠ c.frameBytes := by
  rw [← Bool.not_eq_true, frameSizeOk_iff, not_and_or]

/-- On port `H` a frame that is not whole is rejected, busy or not (rules R184, R187). -/
theorem execEncode_rejects {s : State} {len : BitVec 24} (ha : s.active = .host)
    (hsize : frameSizeOk s.cfg len s.payload = false) :
    execEncode len s = .next (s.raise .frameSize (encode (.encode len))) := by
  simp [execEncode, ha, hsize]

/-- On port `H` a whole frame, held or accepted, records no fault (rule R130). -/
theorem execEncode_whole {s : State} {len : BitVec 24} (ha : s.active = .host)
    (hsize : frameSizeOk s.cfg len s.payload = true) : ∃ t, execEncode len s = .next t ∧ t.fault = s.fault := by
  cases hbusy : s.busy with
  | true => exact ⟨_, execEncode_holds ha hsize hbusy, rfl⟩
  | false => exact ⟨_, execEncode_accepts ha hsize hbusy, rfl⟩

/-- Settles O21: with `LEN` bytes carried, the frame is whole exactly when `LEN` is FRAME_BYTES. -/
theorem frameSizeFaultExactlyOnWrongLength : Obligations.FrameSizeFaultExactlyOnWrongLength := by
  intro len s ha hclear hpay
  have hwhole : frameSizeOk s.cfg len s.payload = true ↔ len.toNat = s.cfg.frameBytes := by
    rw [frameSizeOk_iff, hpay, and_self]
  by_cases hlen : len.toNat = s.cfg.frameBytes
  · obtain ⟨t, ht, hfault⟩ := execEncode_whole ha (hwhole.2 hlen)
    exact ⟨t, ht, iff_of_false (not_not_intro hlen) fun h => by simpa [hfault, hclear] using h.fault⟩
  · have hsize : frameSizeOk s.cfg len s.payload = false := by simpa using mt hwhole.1 hlen
    exact ⟨_, execEncode_rejects ha hsize, iff_of_true hlen (s.raise_faults _ _)⟩

/-! ### The cause of a recorded fault -/

/-- The causes a fault code has (rules R181 to R184), for the transaction `tr` at the head of port `p`. -/
inductive FaultCause (s : State) (p : Port) (tr : Transaction) : FaultCode → Prop where
  | illegalWord {e : DecodeReject} (word : decode tr.cmd = .error e) : FaultCause s p tr .illegalCmd
  | renderEncode {len : BitVec 24} (port : p = .render) (word : decode tr.cmd = .ok (.encode len)) :
      FaultCause s p tr .illegalCmd
  | rdwordRange {gen : BitVec 1} {plane : BitVec 3} {row idx : BitVec 12}
      (word : decode tr.cmd = .ok (.rdword gen plane row idx)) (outside : rdwordInRange s.cfg gen row idx = false) :
      FaultCause s p tr .range
  | rdframeRange {row col : BitVec 12} (word : decode tr.cmd = .ok (.rdframe row col))
      (outside : rdframeInRange s.cfg row col = false) : FaultCause s p tr .range
  | rdwordNotReady {gen : BitVec 1} {plane : BitVec 3} {row idx : BitVec 12}
      (word : decode tr.cmd = .ok (.rdword gen plane row idx))
      (noValue : s.ready = false ∨ s.bufRead gen (wordPosOf plane row idx) = none) : FaultCause s p tr .notReady
  | rdframeNotReady {row col : BitVec 12} (word : decode tr.cmd = .ok (.rdframe row col))
      (noValue : s.ready = false ∨ s.frameRead (frameIndex s.cfg row.toNat col.toNat) = none) :
      FaultCause s p tr .notReady
  | notWhole {len : BitVec 24} (port : p = .host) (word : decode tr.cmd = .ok (.encode len))
      (size : frameSizeOk s.cfg len tr.payload = false) : FaultCause s p tr .frameSize

/-- A cause is looked up in the block and not in the scheduler's data. -/
theorem FaultCause.of_rescheduled {s u : State} (hu : Rescheduled s u) {p : Port} {tr : Transaction} {code : FaultCode}
    (h : FaultCause u p tr code) : FaultCause s p tr code := by
  cases h with
  | illegalWord word => exact .illegalWord word
  | renderEncode port word => exact .renderEncode port word
  | rdwordRange word outside => exact .rdwordRange word (hu.cfg ▸ outside)
  | rdframeRange word outside => exact .rdframeRange word (hu.cfg ▸ outside)
  | rdwordNotReady word noValue =>
    exact .rdwordNotReady word (by simpa only [State.bufRead, hu.cfg, hu.buf, hu.ready] using noValue)
  | rdframeNotReady word noValue =>
    exact .rdframeNotReady word (by simpa only [State.frameRead, hu.cfg, hu.frameCopy, hu.ready] using noValue)
  | notWhole port word size => exact .notWhole port word (hu.cfg ▸ size)

theorem State.payload_of_head {s : State} {tr : Transaction} {rest : List Transaction}
    (head : s.queue s.active = tr :: rest) : s.payload = tr.payload := by
  simp [State.payload, head]

section
variable {s t : State} {r : FaultRecord} (clear : s.fault = none) (record : t.fault = some r)
include clear record

/-- The word run by a port is the one recorded, with that port (rule R185). -/
theorem runCommand_record {cmd : Word} (h : runCommand cmd s = .next t) : r.port = s.active ∧ r.cmd = cmd := by
  rcases runCommand_cases h with ⟨-, -, rfl⟩ | ⟨i, hdec, hexec⟩
  · obtain rfl := Option.some.inj record
    exact ⟨rfl, rfl⟩
  · rcases exec_fault hexec with hsame | ⟨code, hfault⟩
    · simp [hsame, clear] at record
    · obtain rfl := Option.some.inj (hfault.symm.trans record)
      exact ⟨rfl, encode_of_decode hdec⟩

variable {tr : Transaction} {rest : List Transaction} (head : s.queue s.active = tr :: rest)
include head

/-- A command that records a fault had the cause of its code. -/
theorem FaultCause.of_exec {i : Instr} (word : decode tr.cmd = .ok i) (h : exec i s = .next t) :
    FaultCause s s.active tr r.code := by
  have unrecorded : t.fault ≠ s.fault := by simp [record, clear]
  cases i with
  | encode len =>
    cases hport : s.active with
    | render =>
      obtain rfl := Host.Outcome.next.inj ((execEncode_render len hport).symm.trans h)
      obtain rfl := Option.some.inj record
      exact .renderEncode rfl word
    | host =>
      cases hsize : frameSizeOk s.cfg len s.payload with
      | true =>
        obtain ⟨u, hu, hsame⟩ := execEncode_whole hport hsize
        obtain rfl := Host.Outcome.next.inj (hu.symm.trans h)
        exact absurd hsame unrecorded
      | false =>
        obtain rfl := Host.Outcome.next.inj ((execEncode_rejects hport hsize).symm.trans h)
        obtain rfl := Option.some.inj record
        exact .notWhole rfl word (State.payload_of_head head ▸ hsize)
  | rdword gen plane row idx =>
    obtain rfl := Host.Outcome.next.inj ((exec_rdword gen plane row idx s).symm.trans h)
    rcases s.cellRead_record _ _ _ clear record with ⟨hcode, outside⟩ | ⟨hcode, noValue⟩ <;> rw [hcode]
    · exact .rdwordRange word outside
    · exact .rdwordNotReady word noValue
  | rdframe row col =>
    obtain rfl := Host.Outcome.next.inj ((exec_rdframe row col s).symm.trans h)
    rcases s.cellRead_record _ _ _ clear record with ⟨hcode, outside⟩ | ⟨hcode, noValue⟩ <;> rw [hcode]
    · exact .rdframeRange word outside
    · exact .rdframeNotReady word (noValue.imp_right Option.map_eq_none_iff.1)
  | rddelay phase =>
    obtain rfl := Host.Outcome.next.inj h
    exact absurd rfl unrecorded
  | rdstatus =>
    obtain rfl := Host.Outcome.next.inj h
    exact absurd rfl unrecorded

/-- A word that records a fault when a port runs it had the cause of the fault's code. -/
theorem FaultCause.of_runCommand (h : runCommand tr.cmd s = .next t) : FaultCause s s.active tr r.code := by
  rcases runCommand_cases h with ⟨e, hdec, rfl⟩ | ⟨i, hdec, hexec⟩
  · obtain rfl := Option.some.inj record
    exact .illegalWord hdec
  · exact .of_exec clear record head hdec hexec

end

/-- The engine never faults (rule R134). -/
theorem engineStep_fault (choice : Nat) (s : State) : (engineStep choice s).fault = s.fault := by
  rcases engineStep_cases choice s with ⟨-, h⟩ | ⟨-, -, h⟩ | ⟨-, j, -, ⟨n, -, h⟩ | ⟨-, p, -, h⟩ | ⟨-, -, h⟩⟩ <;> rw [h] <;> rfl

/-- A step that records a fault is a step of the recorded port, which runs the recorded word at its head, and the code has its cause
(rules R181 to R185). -/
theorem step_fault_cause {s t : State} {r : FaultRecord} (h : step s = .next t) (clear : s.fault = none)
    (record : t.fault = some r) :
    s.Moves (.port r.port) ∧ ∃ tr rest, s.queue r.port = tr :: rest ∧ r.cmd = tr.cmd ∧ FaultCause s r.port tr r.code := by
  obtain ⟨-, u, hu, rfl | ⟨-, p, tr, rest, hmoves, rfl, hhead, hrun⟩ | ⟨-, choice, rfl⟩ | ⟨rfl, -⟩⟩ := step_agents h
  · simp [hu.fault, clear] at record
  · have clear' : u.fault = none := hu.fault.trans clear
    obtain ⟨hport, hcmd⟩ := runCommand_record clear' record hrun
    rw [hport]
    exact ⟨hmoves, tr, rest, hu.queue _ ▸ hhead, hcmd, (FaultCause.of_runCommand clear' record hhead hrun).of_rescheduled hu⟩
  · simp [engineStep_fault, hu.fault, clear] at record
  · simp at record

/-- Settles O32: the recorded port's step, and the cause of each code. -/
theorem everyFaultHasItsCause : Obligations.EveryFaultHasItsCause := by
  rintro s t ⟨code, port, cmd⟩ h clear record
  obtain ⟨hmoves, tr, rest, hhead, hcmd, hcause⟩ := step_fault_cause h clear record
  refine ⟨⟨hmoves, clear, record, tr, rest, hhead, hcmd⟩, tr, rest, hhead, hcmd, ?_⟩
  cases hcause with
  | illegalWord word => exact .inl ⟨_, word⟩
  | renderEncode port word => exact .inr ⟨port, _, word⟩
  | rdwordRange word outside => exact .inl ⟨_, _, _, _, word, rdwordInRange_eq_false.1 outside⟩
  | rdframeRange word outside => exact .inr ⟨_, _, word, rdframeInRange_eq_false.1 outside⟩
  | rdwordNotReady word noValue => exact .inl ⟨_, _, _, _, word, noValue⟩
  | rdframeNotReady word noValue => exact .inr ⟨_, _, word, noValue⟩
  | notWhole port word size => exact ⟨port, _, word, frameSizeOk_eq_false.1 size⟩

/-! ### The step of an unhalted and of a halted block -/

/-- Settles O38: what answers no next state is a halted block. -/
theorem unhaltedBlockAlwaysSteps : Obligations.UnhaltedBlockAlwaysSteps :=
  fun _ hw hclear => (step_next_or_halted hw).resolve_right fun ⟨_, hfault, _⟩ => by simp [hclear] at hfault

/-- A halted block accepts no command (rule R186). -/
theorem portStep_halted {s : State} (p : Port) (h : s.halted = true) : portStep p s = .next s := by
  simp [portStep, h]

/-- The engine of a halted block takes no step (rule R186). -/
theorem engineStep_halted {s : State} (choice : Nat) (h : s.halted = true) : engineStep choice s = s := by
  simp [engineStep, h]

/-- Settles O33: a scripted move is only taken from the script, and the free step answers the record. -/
theorem haltedBlockTakesNoStep : Obligations.HaltedBlockTakesNoStep := by
  intro s r hw hfault
  have hhalted : s.halted = true := by simp [State.halted, hfault]
  refine ⟨fun p moves hs => ?_, fun choice moves hs => ?_, fun hs => ?_⟩
  · rw [step_scripted hw hs]
    exact portStep_halted p hhalted
  · rw [step_scripted hw hs]
    exact congrArg Host.Outcome.next (engineStep_halted (s := { s with schedule := moves }) choice hhalted)
  · rw [step_unscripted hw hs, freeStep_halted hfault]

end Sys2Proof.Machine
end

section
/-! Proofs of the statements of 70_reset_and_hazards.md: what a reset leaves of a state, and the invariant and coherence of the reset
state. -/

namespace Sys2Proof.Machine

/-- A port `H` of a block that is not busy holds nothing (rule R130). -/
theorem State.hostHeld_of_idle {s : State} (h : s.busy = false) : s.hostHeld = false := by
  simp [State.hostHeld, h]

/-- After a reset every cell of the frame copy is without a value (rule R210). -/
@[simp] theorem State.applyReset_frameRead (s : State) (n : Nat) : s.applyReset.frameRead n = none := rfl

/-- After a reset every cell of the encoded buffer is without a value (rule R210). -/
@[simp] theorem State.applyReset_bufRead (s : State) (gen : BitVec 1) (p : WordPos) : s.applyReset.bufRead gen p = none := rfl

/-- A held ENCODE leaves port `H` unperformed (rule R211, log entry 9). -/
theorem State.applyReset_hostQueue_of_held {s : State} (h : s.hostHeld = true) : s.applyReset.hostQueue = s.hostQueue.tail :=
  if_pos h

/-- Offers on port `H` that are not held stay (rule R211, log entry 9). -/
theorem State.applyReset_hostQueue_of_not_held {s : State} (h : s.hostHeld = false) : s.applyReset.hostQueue = s.hostQueue :=
  if_neg (Bool.eq_false_iff.1 h)

/-- Settles O35: the step answers `State.applyReset`, and whether port `H` is held does not depend on the script. -/
theorem resetRestoresTheResetValues : Obligations.ResetRestoresTheResetValues := by
  intro s moves hw hs
  have hstep : step s = .next (State.applyReset { s with schedule := moves }) := step_scripted hw hs
  exact ⟨_, hstep, State.applyReset_frameRead _, State.applyReset_bufRead _, rfl, rfl, rfl, rfl, rfl, rfl,
    fun held => State.applyReset_hostQueue_of_held held, fun free => State.applyReset_hostQueue_of_not_held free,
    State.hostHeld_of_idle rfl, rfl⟩

/-- Before READY is set there is no committed frame (rule R25), so coherence asks nothing. -/
theorem State.Coherent.of_not_ready {s : State} (h : s.ready = false) : s.Coherent :=
  fun hr => by simp [h] at hr

/-- A reset of the reset state changes nothing. -/
theorem State.applyReset_resetFor (c : Config) : (State.resetFor c).applyReset = State.resetFor c := rfl

/-- The reset state of a well-formed configuration has the invariant: it is a state after a reset. -/
theorem State.inv_resetFor {c : Config} (hc : c.wf = true) : (State.resetFor c).Inv :=
  State.applyReset_resetFor c ▸ State.inv_applyReset (s := State.resetFor c) hc

/-- Nothing is committed at reset, so the reset state is coherent. -/
theorem State.coherent_resetFor (c : Config) : (State.resetFor c).Coherent := .of_not_ready rfl

/-- Settles O49: `State.reset` is the reset state of the configuration T1, which is well formed. -/
theorem invariantHoldsAtReset : Obligations.InvariantHoldsAtReset :=
  ⟨fun c hc => ⟨State.inv_resetFor hc, State.coherent_resetFor c⟩, State.inv_resetFor (by decide), State.coherent_resetFor Config.t1⟩

end Sys2Proof.Machine
end

section
/-! Proof of the statement of 95_test_vectors.md: the command words the vectors write out. -/

namespace Sys2Proof

/-- Settles O4: each accepted word is the encoding of the command the vector names, and such a word decodes to no other command
(rule R91); `11000190` has `OP` 1 with reserved bit 24 set (rule R90), and `F0000000` has the reserved `OP` 15 (rule R89). -/
theorem specWordsDecodeAsGiven : Obligations.SpecWordsDecodeAsGiven := by
  have hbit : ReservedBitSet 0x11000190#32 := .inl ⟨rfl, by decide⟩
  have hop : OpReserved 0xF0000000#32 := .inr (by decide)
  exact ⟨encode_eq_iff.1 rfl, encode_eq_iff.1 rfl, encode_eq_iff.1 rfl, encode_eq_iff.1 rfl, encode_eq_iff.1 rfl,
    encode_eq_iff.1 rfl, decode_of_reservedBitSet hbit, decode_of_op_reserved hop⟩

end Sys2Proof
end
